-- ==== Sys2Proof/Word.lean ====
section
/-!
DEFINITION. Sys2Proof/Word.lean: the bit-vector types of the CORE's registers and ports (R10), and the
two byte names of a 16-bit value (R55). Nothing else: every operation a test could probe is in
Sys2Proof/Decode.lean or Sys2Proof/Machine/.
-/

namespace Sys2Proof

/-- `u8` of R10: duty values, samples and the operand of a command. -/
abbrev Byte := BitVec 8

/-- `u16` of R10: command words and the generator state. -/
abbrev Word := BitVec 16

end Sys2Proof
end

