-- ==== Sys2Proof/Config.lean ====
section
/-!
DEFINITION. Sys2Proof/Config.lean: what a build fixes (R6, R7), the levels of the CORE's input ports
(R51), and the free values, which the spec leaves to the outside world: opaque constants with no body.
-/

namespace Sys2Proof

/-- The implementation parameters of R6, each fixed when the block is built. The types hold the
constraints of R7 (`PWM_MIN` in 0..255, `DELAY_BUDGET` in 0..32767, `DELAY_OFFSET` in 1..255), so a build
that breaks one cannot be written: that is how the model refuses it. -/
structure Build where
  /-- `PWM_MIN`, the minimum sustaining duty. -/
  pwmMin : Byte
  /-- `DELAY_OFFSET`, the constant added to each delay sample. -/
  delayOffset : Byte
  /-- `DELAY_BUDGET`, the starting value of the delay countdown: 15 bits are 0..32767. -/
  delayBudget : BitVec 15
  /-- `RNG_INIT`, the reset value of `rng`. -/
  rngInit : Word
  /-- `INIT_DUTY`, the reset value of `duty`. -/
  initDuty : Byte
  /-- `MODE_AUTO_LEVEL`, the level of `mode_sw` that means Auto. -/
  modeAutoLevel : Bool
  /-- R7, R156: with an offset of 0 the wait could never end. -/
  offset_pos : 1 ≤ delayOffset.toNat
deriving DecidableEq, Repr

/-- The levels of the CORE's input ports during one step (R51). `clk` is not among them: no rule depends
on its frequency (R8, R51). -/
structure Pins where
  /-- `rst`: synchronous reset, active high (R220). -/
  rst : Bool
  /-- `cmd_valid`: the host offers the word on `cmd` (R70). -/
  cmdValid : Bool
  /-- `cmd`: the command word offered (R71). -/
  cmd : Word
  /-- `smp_ack`: the sampler's result is ready (R52). -/
  smpAck : Bool
  /-- `smp_data`: the sampler's result (R52). -/
  smpData : Byte
  /-- `mode_sw`: the mode switch level (R54). -/
  modeSw : Bool
deriving DecidableEq, Repr, Inhabited

/-- `PWM_MIN` of the block as built: OPEN in R6, so any byte. -/
opaque Config.pwmMin : Byte

/-- `DELAY_OFFSET - 1` of the block as built: OPEN in R6, and R7 keeps the offset in 1..255. -/
opaque Config.delayOffsetLessOne : Fin 255

/-- `DELAY_BUDGET` of the block as built: OPEN in R6, and R7 keeps it in 0..32767. -/
opaque Config.delayBudget : BitVec 15

/-- FREE VALUE: the levels of the input ports at each step (R9: samples are "any 8-bit value", the host
supplies commands and may assert reset; 93 I8, I10). Nothing constrains them. -/
opaque Config.freePins : Nat → Pins

/-- FREE VALUE: what the external PWM register holds before its first strobe (R34: it "keeps whatever it
held"). -/
opaque Config.pwmRegAtPowerUp : Byte

/-- `DELAY_OFFSET` of the block as built. -/
def Config.delayOffset : Byte := BitVec.ofNat 8 (Config.delayOffsetLessOne.val + 1)

theorem Config.delayOffset_pos : 1 ≤ Config.delayOffset.toNat := by
  have h := Config.delayOffsetLessOne.isLt
  simp only [Config.delayOffset, BitVec.toNat_ofNat]
  omega

/-- The block as built: the three OPEN parameters are whatever the builder chose, the other three have
the values R6 fixes (D10, D12, D7). -/
def Config.build : Build where
  pwmMin := Config.pwmMin
  delayOffset := Config.delayOffset
  delayBudget := Config.delayBudget
  rngInit := 0x0000
  initDuty := 0xFF
  modeAutoLevel := true
  offset_pos := Config.delayOffset_pos

end Sys2Proof
end

