-- ==== Sys2Proof/Syntax.lean ====
section
/-!
DEFINITION. Sys2Proof/Syntax.lean: the command set (R74), one constructor of `Instr` per row of
spec/opcode_table.json, and the three fields of a command word (R71).
-/

namespace Sys2Proof

/-- The eleven commands of R74. A C-I form (R72) carries its operand `imm8`, read as u8 (R73); a C-N
form carries nothing. -/
inductive Instr where
  /-- `NOP` (0x0000, R170): no micro-step. -/
  | nop
  /-- `SCALE x` (0x1000, R104): `res <- scale(x)`. -/
  | scale (x : Byte)
  /-- `SEED` (0x2000, R114): fold one live sample into the high byte of `rng`. -/
  | seed
  /-- `NEXT e` (0x3000, R115): step the generator with entropy `e`, target into `res`. -/
  | next (e : Byte)
  /-- `PERTURB` (0x4000, R116): add one live sample into `rng`. -/
  | perturb
  /-- `MANUAL` (0x5000, R171): one manual-mode unit of work. -/
  | manual
  /-- `SETDUTY v` (0x6000, R138): write the duty value `v`. -/
  | setduty (v : Byte)
  /-- `DELAY` (0x7000, R155): one delay wait by itself. -/
  | delay
  /-- `RAMP t` (0x8000, R139): one ramp leg to the target `t`. -/
  | ramp (t : Byte)
  /-- `AUTO e` (0x9000, R172): one generated target and one ramp leg to it. -/
  | auto (e : Byte)
  /-- `RUN` (0xA000, R173): the reference dispatch loop. -/
  | run
deriving DecidableEq, Repr

/-- The fields of a command word (R71): `op` in bits 15:12, `rsv` in bits 11:8, `imm8` in bits 7:0. -/
structure Fields where
  op : BitVec 4
  rsv : BitVec 4
  imm : Byte
deriving DecidableEq, Repr

end Sys2Proof
end

