-- ==== Sys2Proof/WellFormed.lean ====
section
/-!
DEFINITION. Sys2Proof/WellFormed.lean: the checks the spec puts on the fields of a command word (R71,
R72, R75) and on a build's parameters (R7).
-/

namespace Sys2Proof

/-- R74: `op` values 0xB to 0xF are reserved. -/
def Fields.opDefined (f : Fields) : Bool := f.op.toNat < 0xB

/-- R71: `rsv` must be 0000. -/
def Fields.rsvZero (f : Fields) : Bool := f.rsv == 0

/-- R74, R75: the opcodes of the C-N forms. -/
def Fields.isCN (f : Fields) : Bool := [0x0, 0x2, 0x4, 0x5, 0x7, 0xA].contains f.op.toNat

/-- R72: a C-N form's `imm8` must be 0x00; a C-I form's may be any byte. -/
def Fields.operandAllowed (f : Fields) : Bool := !f.isCN || f.imm == 0

/-- The fields of a legal command word: exactly the words R75 does not call ILLEGAL. -/
def Fields.wellFormed (f : Fields) : Bool := f.opDefined && f.rsvZero && f.operandAllowed

/-- A build's parameters as plain numbers, before R7 is checked. -/
structure RawBuild where
  pwmMin : Int
  delayOffset : Int
  delayBudget : Int
  rngInit : Word
  initDuty : Byte
  modeAutoLevel : Bool
deriving DecidableEq, Repr

/-- R7: `0 <= PWM_MIN <= 255`. -/
def RawBuild.pwmMinOk (r : RawBuild) : Bool := 0 ≤ r.pwmMin && r.pwmMin ≤ 255

/-- R7, R156: `1 <= DELAY_OFFSET <= 255`. -/
def RawBuild.delayOffsetOk (r : RawBuild) : Bool := 1 ≤ r.delayOffset && r.delayOffset ≤ 255

/-- R7, R157: `0 <= DELAY_BUDGET <= 32767`. -/
def RawBuild.delayBudgetOk (r : RawBuild) : Bool := 0 ≤ r.delayBudget && r.delayBudget ≤ 32767

/-- The parameter constraints of R7. -/
def RawBuild.wellFormed (r : RawBuild) : Bool := r.pwmMinOk && r.delayOffsetOk && r.delayBudgetOk

theorem RawBuild.offset_pos_of_wellFormed {r : RawBuild} (h : r.wellFormed = true) :
    1 ≤ (BitVec.ofNat 8 r.delayOffset.toNat).toNat := by
  simp only [wellFormed, delayOffsetOk, Bool.and_eq_true, decide_eq_true_eq] at h
  obtain ⟨⟨-, h1, h2⟩, -⟩ := h
  simp only [BitVec.toNat_ofNat]
  omega

/-- R7: "A model must refuse a build whose parameters break a constraint." -/
def RawBuild.toBuild (r : RawBuild) : Option Build :=
  if h : r.wellFormed = true then
    some {
      pwmMin := BitVec.ofNat 8 r.pwmMin.toNat
      delayOffset := BitVec.ofNat 8 r.delayOffset.toNat
      delayBudget := BitVec.ofNat 15 r.delayBudget.toNat
      rngInit := r.rngInit
      initDuty := r.initDuty
      modeAutoLevel := r.modeAutoLevel
      offset_pos := RawBuild.offset_pos_of_wellFormed h }
  else none

end Sys2Proof
end

