-- ==== Sys2Proof/Decode.lean ====
section
/-!
DEFINITION. Sys2Proof/Decode.lean: the decoder, total over all 65536 words and rejecting by name (R75,
R76), the opcode map as its match and mask rows (R74), and the encoder (R71, R78).
-/

namespace Sys2Proof

/-- Why R75 calls a word ILLEGAL, in the order it tests. -/
inductive Illegal where
  /-- `op >= 0xB`: a reserved opcode. -/
  | reservedOp
  /-- `rsv != 0`. -/
  | reservedBits
  /-- a C-N form with `imm8 != 0`. -/
  | operandOnCN
deriving DecidableEq, Repr

/-- What the decoder answers: a command, or a rejection with its reason. -/
inductive Decoded where
  | legal (i : Instr)
  | illegal (why : Illegal)
deriving DecidableEq, Repr

/-- Is the word a command? -/
def isLegal : Decoded → Bool
  | .legal _ => true
  | .illegal _ => false

/-- R71: `op = w[15:12]`, `rsv = w[11:8]`, `imm8 = w[7:0]`. -/
def fieldsOfWord (w : Word) : Fields where
  op := w.extractLsb' 12 4
  rsv := w.extractLsb' 8 4
  imm := w.extractLsb' 0 8

/-- R71: the word `{op, rsv, imm8}`. -/
def wordOfFields (f : Fields) : Word := f.op ++ f.rsv ++ f.imm

/-- R74: the command of an opcode, with the operand `imm`; none for the reserved ones. -/
def commandOfOp (op : Nat) (imm : Byte) : Option Instr :=
  match op with
  | 0x0 => some .nop
  | 0x1 => some (.scale imm)
  | 0x2 => some .seed
  | 0x3 => some (.next imm)
  | 0x4 => some .perturb
  | 0x5 => some .manual
  | 0x6 => some (.setduty imm)
  | 0x7 => some .delay
  | 0x8 => some (.ramp imm)
  | 0x9 => some (.auto imm)
  | 0xA => some .run
  | _ => none

/-- R75, test by test in its order. Decoding depends on the word alone (R77). -/
def decode (w : Word) : Decoded :=
  let f := fieldsOfWord w
  match commandOfOp f.op.toNat f.imm with
  | none => .illegal .reservedOp
  | some i =>
    if !f.rsvZero then .illegal .reservedBits
    else if !f.operandAllowed then .illegal .operandOnCN
    else .legal i

/-- R74: the opcode of a command. -/
def opOf : Instr → BitVec 4
  | .nop => 0x0
  | .scale _ => 0x1
  | .seed => 0x2
  | .next _ => 0x3
  | .perturb => 0x4
  | .manual => 0x5
  | .setduty _ => 0x6
  | .delay => 0x7
  | .ramp _ => 0x8
  | .auto _ => 0x9
  | .run => 0xA

/-- R71: the operand field of a command, 0x00 for a command without an operand. -/
def immOf : Instr → Byte
  | .scale x => x
  | .next e => e
  | .setduty v => v
  | .ramp t => t
  | .auto e => e
  | .nop => 0
  | .seed => 0
  | .perturb => 0
  | .manual => 0
  | .delay => 0
  | .run => 0

/-- R71, R78: the fields a command assembles to, `{op, 0000, imm8}`. -/
def fieldsOf (i : Instr) : Fields where
  op := opOf i
  rsv := 0
  imm := immOf i

/-- The word of a command (R71, R78). -/
def encode (i : Instr) : Word := wordOfFields (fieldsOf i)

/-- A command's fields pass every check of R75. -/
def wellFormed (i : Instr) : Bool := (fieldsOf i).wellFormed

/-- One row of R74's opcode map: a word `w` is the command when `w & mask = match`. -/
structure OpcodeRow where
  /-- The row's opcode. -/
  op : Nat
  /-- `match`. -/
  pattern : Word
  /-- `mask`. -/
  mask : Word
deriving DecidableEq, Repr

/-- R74's opcode map, its match and mask columns as the spec prints them. -/
def opcodeMap : List OpcodeRow :=
  [ { op := 0x0, pattern := 0x0000, mask := 0xFFFF },
    { op := 0x1, pattern := 0x1000, mask := 0xFF00 },
    { op := 0x2, pattern := 0x2000, mask := 0xFFFF },
    { op := 0x3, pattern := 0x3000, mask := 0xFF00 },
    { op := 0x4, pattern := 0x4000, mask := 0xFFFF },
    { op := 0x5, pattern := 0x5000, mask := 0xFFFF },
    { op := 0x6, pattern := 0x6000, mask := 0xFF00 },
    { op := 0x7, pattern := 0x7000, mask := 0xFFFF },
    { op := 0x8, pattern := 0x8000, mask := 0xFF00 },
    { op := 0x9, pattern := 0x9000, mask := 0xFF00 },
    { op := 0xA, pattern := 0xA000, mask := 0xFFFF } ]

/-- R74: `w & mask = match`. -/
def rowMatches (r : OpcodeRow) (w : Word) : Bool := w &&& r.mask == r.pattern

/-- The word whose low `nbits` bits are `w`, every bit above them 0. A command is one 16-bit word carried
in parallel, so no byte order enters (R55, R77). -/
def tableWord (nbits w : Nat) : Word := BitVec.ofNat 16 (w % 2 ^ nbits)

/-- The command the decoder reads from a table word: one 16-bit word, so no longer row is a command
(R77). -/
def decodeTableWord (nbits w : Nat) : Option Instr :=
  if nbits ≤ 16 then
    match decode (tableWord nbits w) with
    | .legal i => some i
    | .illegal _ => none
  else none

end Sys2Proof
end

