-- ==== Sys2Proof/Machine/State.lean ====
section
/-!
DEFINITION. Sys2Proof/Machine/State.lean: the CORE's state as plain data (R21, R31, R33), the model's own
fields beside it (the build, the record of events, the external PWM register, the input levels already
fixed), the reasons a step can stop, and the state after reset (R34).
-/

namespace Sys2Proof.Machine

/-- The observable events of a micro-step (R8). -/
inductive Event where
  /-- `CmdAccept(w)`: a command word accepted (R70). -/
  | cmdAccept (w : Word)
  /-- `SampleRead(v)`: one completed sampler transaction returning `v` (R52). -/
  | sampleRead (v : Byte)
  /-- `DutyWrite(v)`: one write strobe on the PWM port (R53). -/
  | dutyWrite (v : Byte)
  /-- `Tick`: one countdown iteration of the delay timer (R151). -/
  | tick
  /-- `ModePoll(b)`: one read of the mode switch (R54). -/
  | modePoll (b : Bool)
deriving DecidableEq, Repr

/-- Whose delay wait is running: DELAY's own (R155), or one decision step's of a ramp leg (R131). -/
inductive WaitOf where
  | command
  | leg
deriving DecidableEq, Repr

/-- What a `ReadInput()` is for, that is, which statement of which rule follows it. -/
inductive SampleUse where
  /-- R114, and the seed at RUN's entry (R173): `rng <- rng + (v << 8)`. -/
  | seed
  /-- R116: `rng <- rng + v`. -/
  | perturb
  /-- R171: `SetDuty(scale(v))` and `rng <- rng + v`. -/
  | manual
  /-- R150: `dly_units <- v + DELAY_OFFSET`, `dly_cnt <- DELAY_BUDGET`. -/
  | wait (w : WaitOf)
deriving DecidableEq, Repr

/-- The sequencer position (R31): which micro-step of the command in `cmd` comes next. Together with
`steps_left`, `dly_cnt` and `cmd` it plays the part of a program counter. -/
inductive Pos where
  /-- No command in progress. -/
  | idle
  /-- In the acceptance micro-step (R70). A step passes through it and never ends in it. -/
  | accept
  /-- The first micro-step of the accepted command. -/
  | start
  /-- Inside `ReadInput()`: `smp_req` is asserted, waiting for `smp_ack` (R33, R52). -/
  | await (u : SampleUse)
  /-- The sample `v` has been read; the statement that uses it. -/
  | apply (u : SampleUse) (v : Byte)
  /-- The first statements of `RampLeg(t)` (R131). -/
  | legStart (t : Byte)
  /-- `DecisionStep()` (R132). -/
  | decide
  /-- The start of a leg's `DelayWait()` (R150). -/
  | wait
  /-- `Tick()` (R151). -/
  | tick (w : WaitOf)
  /-- `steps_left <- steps_left - 1` and the loop test (R131). -/
  | count
  /-- RUN's mode poll (R173). -/
  | poll
  /-- The first micro-step of RUN's next unit of work, chosen by `mode` (R173). -/
  | unit
deriving DecidableEq, Repr

/-- The whole state. The registers of R21 come first, under the spec's names; then the rest of the CORE's
state; then the model's own fields. -/
structure State where
  /-- `duty` (R22): the current duty cycle, which is the PWM port's value. -/
  duty : Byte
  /-- `rng` (R23): the generator state. -/
  rng : Word
  /-- `res`: the result of the last SCALE, NEXT or AUTO. -/
  res : Byte
  /-- `tgt`: the target of the ramp leg in progress. -/
  tgt : Byte
  /-- `acc` (R24): the ramp error accumulator, s16. -/
  acc : BitVec 16
  /-- `dir`: false is +1, true is -1. -/
  dir : Bool
  /-- `mag` (R24): the accumulator increment, u10. -/
  mag : BitVec 10
  /-- `steps_left` (R24): decision steps not yet done in this leg, u8. -/
  stepsLeft : BitVec 8
  /-- `dly_units` (R25): the countdown decrement, u9. -/
  dlyUnits : BitVec 9
  /-- `dly_cnt` (R25): the delay countdown, s16. -/
  dlyCnt : BitVec 16
  /-- `mode`: did the last mode poll see Auto? -/
  mode : Bool
  /-- `run`: has RUN been accepted? -/
  run : Bool
  /-- `busy`: is a command executing? -/
  busy : Bool
  /-- `err`: the sticky illegal-command flag. -/
  err : Bool
  /-- `err_cmd`: the first illegal command word. -/
  errCmd : Word
  /-- `cmd`: the command word being executed. -/
  cmd : Word
  /-- The sequencer position (R31). -/
  pos : Pos
  /-- `smp_req` (R33): is a sampler transaction outstanding? -/
  smpReq : Bool
  /-- `pwm_we` (R53): did the micro-step just completed strobe the PWM port? -/
  pwmWe : Bool
  /-- MODEL'S OWN: the external PWM register, which loads `pwm_duty` on each strobe (R53, R224). -/
  pwmReg : Byte
  /-- MODEL'S OWN: the build's parameters (R6); no step changes them. -/
  build : Build
  /-- MODEL'S OWN: every event emitted so far, the latest first (R8). -/
  trace : List Event
  /-- MODEL'S OWN: the input-port levels already fixed for the coming steps, the nearest first. -/
  script : List Pins
  /-- MODEL'S OWN: how many steps have been taken, the argument of `Config.freePins`. -/
  time : Nat
deriving DecidableEq, Repr

/-- The reasons a step stops. No command raises one (R200), and an illegal command word is no stop
(R201). -/
inductive Fault where
  /-- Raised by `step` alone: a command is in progress but `cmd` holds no legal word. The spec gives no
  such state and no run reaches it (`BusyHoldsACommand` of Sys2Proof/Safety.lean). Safe: the model stops
  where it has nothing to say. -/
  | noCommandInProgress
deriving DecidableEq, Repr

/-- The reasons for which a command has no meaning here. No meaning refuses. -/
inductive Refusal where
  /-- Raised by an arm of `exec` for a command not yet modelled. No arm raises it. Safe. -/
  | notModelled (mnemonic : String)
deriving DecidableEq, Repr

/-- The state right after reset (R34), in the block as built, with no event yet and every input level
free. -/
def State.reset : State where
  duty := 0xFF
  rng := 0x0000
  res := 0x00
  tgt := 0
  acc := 0
  dir := false
  mag := 0
  stepsLeft := 0
  dlyUnits := 0
  dlyCnt := 0
  mode := false
  run := false
  busy := false
  err := false
  errCmd := 0x0000
  cmd := 0x0000
  pos := .idle
  smpReq := false
  pwmWe := false
  pwmReg := Config.pwmRegAtPowerUp
  build := Config.build
  trace := []
  script := []
  time := 0

end Sys2Proof.Machine
end

