-- ==== Sys2Proof/Machine/Operands.lean ====
section
/-!
DEFINITION. Sys2Proof/Machine/Operands.lean: the input levels of a step, and the pure functions the commands
share: the duty-cycle range scaler (R100), the generator's step and target (R110, R111), the sample folds
(R114, R116), the operands of a ramp leg (R131) and of a delay wait (R150, R152).
-/

namespace Sys2Proof.Machine

/-- The levels of the input ports at this step: the next ones already fixed, else free (R9). -/
def pinsOf (s : State) : Pins :=
  match s.script with
  | [] => Config.freePins s.time
  | p :: _ => p

/-- R100: `scale(x) = ((x * (255 - PWM_MIN) + 127) div 255) + PWM_MIN`, on numbers, narrowed at the end. -/
def scale (pwmMin x : Byte) : Byte :=
  BitVec.ofNat 8 ((x.toNat * (255 - pwmMin.toNat) + 127) / 255 + pwmMin.toNat)

/-- R110: `trunc_16(trunc_16((s << 2) + s) + 0x3333 + zext_16(e))`. -/
def lcg (s : Word) (e : Byte) : Word := (s <<< 2) + s + 0x3333 + e.setWidth 16

/-- R55, R111: `s'[15:8]`, the source's `new_state >> 8`. -/
def highByte (w : Word) : Byte := w.extractLsb' 8 8

/-- R111: `target_of(s') = scale(s'[15:8])`. -/
def targetOf (pwmMin : Byte) (s' : Word) : Byte := scale pwmMin (highByte s')

/-- R114: `trunc_16(rng + (zext_16(v) << 8))`. -/
def foldHigh (rng : Word) (v : Byte) : Word := rng + (v.setWidth 16 <<< 8)

/-- R116, R171: `trunc_16(rng + zext_16(v))`. -/
def foldLow (rng : Word) (v : Byte) : Word := rng + v.setWidth 16

/-- R131: `delta = zext(t) - zext(duty)`, -255..255. -/
def legDelta (duty t : Byte) : Int := t.toNat - duty.toNat

/-- R131, R133: `dir` is 1 exactly when `delta < 0`; 0 means +1, and `delta = 0` gives 0. -/
def legDir (duty t : Byte) : Bool := legDelta duty t < 0

/-- R131: `mag = 2 * abs(delta)`, u10. -/
def legMag (duty t : Byte) : BitVec 10 := BitVec.ofNat 10 (2 * (legDelta duty t).natAbs)

/-- R132: one unit in the direction `dir`: `trunc_8(duty + 1)` or `trunc_8(duty - 1)`. -/
def moveOne (dir : Bool) (duty : Byte) : Byte := if dir then duty - 1 else duty + 1

/-- R150, R158: `zext_9(s) + DELAY_OFFSET`, a 9-bit sum. -/
def delayUnits (offset s : Byte) : BitVec 9 := s.setWidth 9 + offset.setWidth 9

/-- R152: `ticks(du) = (B div du) + 1`. -/
def ticks (budget du : Nat) : Nat := budget / du + 1

end Sys2Proof.Machine
end

