-- ==== Sys2Proof/Machine/Flags.lean ====
section
/-!
DEFINITION. Sys2Proof/Machine/Flags.lean: the conditions of R26 (there are no condition codes: the CORE
tests these and nothing else) and the STATUS byte of R28.
-/

namespace Sys2Proof.Machine

/-- R132: `acc + mag`, s16. -/
def accSum (s : State) : BitVec 16 := s.acc + s.mag.setWidth 16

/-- R26, R132: the sign test `acc >= 0` just after the addition: does this decision step move `duty`? -/
def legMoves (s : State) : Bool := !(accSum s).slt 0

/-- R151: `dly_cnt - zext_16(dly_units)`, s16. -/
def dlyNext (s : State) : BitVec 16 := s.dlyCnt - s.dlyUnits.setWidth 16

/-- R26, R150: the delay end test `dly_cnt < 0`, made after the decrement. -/
def waitEnds (s : State) : Bool := (dlyNext s).slt 0

/-- R26, R131: the end test `steps_left = 0`, made after the decrement. -/
def legEnds (s : State) : Bool := s.stepsLeft - 1 == 0

/-- One bit of a status byte. -/
def bit (b : Bool) : BitVec 1 := BitVec.ofBool b

/-- R28: STATUS: bit 0 BUSY, bit 1 RUN, bit 2 MODE, bit 3 ERR, bits 7:4 always 0. -/
def status (s : State) : Byte := 0#4 ++ bit s.err ++ bit s.mode ++ bit s.run ++ bit s.busy

/-- R70: `cmd_ready = 1` exactly when `busy = 0` and `run = 0`. -/
def idleAndReady (s : State) : Bool := !s.busy && !s.run

end Sys2Proof.Machine
end

