-- ==== Sys2Proof/Machine/Ops.lean ====
section
/-!
DEFINITION. Sys2Proof/Machine/Ops.lean: the named operations over the registers and the ports: the port
primitives of R12, the handshake and its one exception (R70, R201), reset (R220), the micro-steps shared by
several commands (R131, R132, R150, R151, R173), and what a step does around them.
-/

namespace Sys2Proof.Machine

/-! ## Registers and events -/

/-- The sequencer goes on at `p` (R31). -/
def goTo (p : Pos) (s : State) : State := { s with pos := p }

/-- Emit one event (R8). -/
def emit (e : Event) (s : State) : State := { s with trace := e :: s.trace }

/-- `rng <- v`. -/
def writeRng (v : Word) (s : State) : State := { s with rng := v }

/-- `res <- v`. -/
def writeRes (v : Byte) (s : State) : State := { s with res := v }

/-- The end of a command's or a unit's last micro-step. `busy <- 0` (R70), except inside RUN, which has no
last micro-step and goes on with its next mode poll (R173). -/
def complete (s : State) : State :=
  { s with busy := s.busy && s.run, pos := if s.run then .poll else .idle }

/-! ## The port primitives -/

/-- `SetDuty(v)` (R53): `duty <- v`, one strobe, which the external register takes, one `DutyWrite(v)`. -/
def setDuty (v : Byte) (s : State) : State :=
  emit (.dutyWrite v) { s with duty := v, pwmWe := true, pwmReg := v }

/-- The start of `ReadInput()` (R52): `smp_req <- 1`, a new conversion each time. -/
def request (u : SampleUse) (s : State) : State := { s with smpReq := true, pos := .await u }

/-- The sampler answers (R52): latch `smp_data`, `smp_req <- 0`, `SampleRead(v)`. -/
def latch (u : SampleUse) (v : Byte) (s : State) : State :=
  emit (.sampleRead v) { s with smpReq := false, pos := .apply u v }

/-- Inside `ReadInput()` (R52, R233): with an answer, latch it; without one, `smp_req` stays asserted and
nothing else happens, for as long as it takes. -/
def awaitSample (u : SampleUse) (s : State) : State :=
  if s.smpReq && (pinsOf s).smpAck then latch u (pinsOf s).smpData s else { s with smpReq := true }

/-- `ReadModeSwitch()` at RUN's poll (R54, R173): `mode <- (b = MODE_AUTO_LEVEL) ? 1 : 0`, one
`ModePoll(b)`; the unit of work comes next. -/
def pollMode (s : State) : State :=
  emit (.modePoll (pinsOf s).modeSw)
    { s with mode := (pinsOf s).modeSw == s.build.modeAutoLevel, pos := .unit }

/-! ## The handshake, the exception and reset -/

/-- Acceptance of the word `w` (R70): `cmd <- w` and `CmdAccept(w)`, whether `w` is legal or not. -/
def latchCommand (w : Word) (s : State) : State := emit (.cmdAccept w) { s with cmd := w }

/-- Acceptance of a legal word (R70): then `busy <- 1`, and the command's rule begins. -/
def acceptCommand (w : Word) (s : State) : State :=
  { latchCommand w s with busy := true, pos := .accept }

/-- `raise IllegalCommand(w)` (R201): only the first word is kept, `err` is sticky. -/
def raiseIllegal (w : Word) (s : State) : State :=
  { s with errCmd := if s.err then s.errCmd else w, err := true }

/-- R220: every register to its value of R34, the command in progress abandoned, no event and no strobe.
The external register keeps what it holds (R224). -/
def resetRegisters (s : State) : State where
  duty := s.build.initDuty
  rng := s.build.rngInit
  res := 0x00
  tgt := 0
  acc := 0
  dir := false
  mag := 0
  stepsLeft := 0
  dlyUnits := 0
  dlyCnt := 0
  mode := false
  run := false
  busy := false
  err := false
  errCmd := 0x0000
  cmd := 0x0000
  pos := .idle
  smpReq := false
  pwmWe := false
  pwmReg := s.pwmReg
  build := s.build
  trace := s.trace
  script := s.script
  time := s.time

/-! ## Micro-steps several commands share -/

/-- A legal command has been accepted; its first micro-step comes next. -/
def enter (s : State) : State := goTo .start s

/-- The statement after SEED's read, and after the read at RUN's entry (R114, R173). -/
def applySeed (v : Byte) (s : State) : State := complete (writeRng (foldHigh s.rng v) s)

/-- The statement after PERTURB's read (R116). -/
def applyPerturb (v : Byte) (s : State) : State := complete (writeRng (foldLow s.rng v) s)

/-- MANUAL's micro-step 2 (R171): the write and the addition together. -/
def applyManual (v : Byte) (s : State) : State :=
  complete (writeRng (foldLow s.rng v) (setDuty (scale s.build.pwmMin v) s))

/-- AUTO's micro-step 1 (R172), with entropy `e`: `rng`, `res` and the leg's target; no event. -/
def generate (e : Byte) (s : State) : State :=
  goTo (.legStart (targetOf s.build.pwmMin (lcg s.rng e)))
    (writeRes (targetOf s.build.pwmMin (lcg s.rng e)) (writeRng (lcg s.rng e) s))

/-- The first statements of `RampLeg(t)` (R131): no event, no PWM write. -/
def legSetup (t : Byte) (s : State) : State :=
  { s with
    tgt := t
    dir := legDir s.duty t
    mag := legMag s.duty t
    acc := BitVec.ofInt 16 (-255)
    stepsLeft := 255
    pos := .decide }

/-- `DecisionStep()` (R132): add `mag`; then, if the sum is not negative, subtract 510 and move one unit. -/
def decisionStep (s : State) : State :=
  if legMoves s then
    setDuty (moveOne s.dir s.duty) { s with acc := accSum s - 510, pos := .wait }
  else { s with acc := accSum s, pos := .wait }

/-- The loop's end of `RampLeg` (R131): `steps_left <- steps_left - 1`, then another decision step or the
end of the leg. -/
def countStep (s : State) : State :=
  if legEnds s then complete { s with stepsLeft := s.stepsLeft - 1 }
  else { s with stepsLeft := s.stepsLeft - 1, pos := .decide }

/-- The statements of `DelayWait()` between its read and its first tick (R150). -/
def armWait (w : WaitOf) (v : Byte) (s : State) : State :=
  { s with
    dlyUnits := delayUnits s.build.delayOffset v
    dlyCnt := s.build.delayBudget.setWidth 16
    pos := .tick w }

/-- Where a wait's end leads: DELAY completes (R155), a leg counts its step (R131). -/
def afterWait (w : WaitOf) (s : State) : State :=
  match w with
  | .command => complete s
  | .leg => goTo .count s

/-- `Tick()` and its loop test (R150, R151). -/
def tickStep (w : WaitOf) (s : State) : State :=
  let s' := emit .tick { s with dlyCnt := dlyNext s }
  if waitEnds s then afterWait w s' else s'

/-- The micro-steps of a `DelayWait()` after its request (R150); at any other position, nothing. -/
def waitStep (s : State) : State :=
  match s.pos with
  | .await (.wait w) => awaitSample (.wait w) s
  | .apply (.wait w) v => armWait w v s
  | .tick w => tickStep w s
  | _ => s

/-- The micro-steps of a ramp leg after its set-up (R131); at any other position, nothing. -/
def legStep (s : State) : State :=
  match s.pos with
  | .decide => decisionStep s
  | .wait => request (.wait .leg) s
  | .count => countStep s
  | _ => waitStep s

/-- The micro-steps of the manual unit after its request (R171); at any other position, nothing. -/
def manualStep (s : State) : State :=
  match s.pos with
  | .await .manual => awaitSample .manual s
  | .apply .manual v => applyManual v s
  | _ => s

/-- The micro-steps of the auto unit after its first (R172); at any other position, nothing. -/
def autoStep (s : State) : State :=
  match s.pos with
  | .legStart t => legSetup t s
  | _ => legStep s

/-- The micro-steps of SEED after its request (R114); at any other position, nothing. -/
def seedStep (s : State) : State :=
  match s.pos with
  | .await .seed => awaitSample .seed s
  | .apply .seed v => applySeed v s
  | _ => s

/-- A command with one micro-step, `effect`, after which it completes. -/
def oneMicroStep (effect : State) (s : State) : State :=
  match s.pos with
  | .accept => enter s
  | _ => complete effect

/-- A command of several micro-steps: `first`, then `rest`. -/
def severalMicroSteps (first rest s : State) : State :=
  match s.pos with
  | .accept => enter s
  | .start => first
  | _ => rest

/-! ## What a step does around a command -/

/-- The strobe lasts one micro-step (R53): every step begins without it. -/
def quiet (s : State) : State := { s with pwmWe := false }

/-- The levels of this step have been used; the next step sees the next ones. -/
def advance (s : State) : State := { s with script := s.script.tail, time := s.time + 1 }

/-- A command's micro-step, and the end of the step. -/
def afterCommand (o : Host.Outcome State Fault Refusal) : Host.Outcome State Fault Refusal :=
  match o with
  | .next s => .next (advance s)
  | .fault r => .fault r
  | .refused r => .refused r

/-- A step with `rst = 1` (R220). -/
def resetCycle (s : State) : State := advance (resetRegisters s)

/-- A step that accepts the illegal word `w` (R70, R201): `busy` stays 0. -/
def illegalCycle (w : Word) (s : State) : State := advance (raiseIllegal w (latchCommand w (quiet s)))

/-- A step with no command in progress and none offered (R221): the CORE does nothing by itself. -/
def idleCycle (s : State) : State := advance (quiet s)

/-- The levels with the word `w` offered and no reset, the others as they are. -/
def offering (w : Word) (p : Pins) : Pins := { p with rst := false, cmdValid := true, cmd := w }

/-- The state in which the CORE is ready for a command and the host offers `w` at the coming step. -/
def offer (w : Word) (s : State) : State :=
  { s with
    busy := false
    run := false
    pos := .idle
    smpReq := false
    script := offering w (pinsOf s) :: s.script.tail }

/-! ## The output ports -/

/-- The CORE's output ports (R29, R51). -/
structure Outputs where
  cmdReady : Bool
  smpReq : Bool
  pwmWe : Bool
  pwmDuty : Byte
  dutyQ : Byte
  rngQ : Word
  resQ : Byte
  statusQ : Byte
  errCmdQ : Word
deriving DecidableEq, Repr

/-- An output that reset holds at 0: its level `b` while `rst = 0`, and 0 in every cycle with `rst = 1`
(R220). -/
def heldInReset (s : State) (b : Bool) : Bool := b && !(pinsOf s).rst

/-- The levels of the output ports after the last completed micro-step (R29). In every cycle with `rst = 1`,
`cmd_ready`, `smp_req` and `pwm_we` are 0 (R220). Else `pwm_we` is the strobe of the micro-step just
completed. -/
def outputs (s : State) : Outputs where
  cmdReady := heldInReset s (idleAndReady s)
  smpReq := heldInReset s s.smpReq
  pwmWe := heldInReset s s.pwmWe
  pwmDuty := s.duty
  dutyQ := s.duty
  rngQ := s.rng
  resQ := s.res
  statusQ := status s
  errCmdQ := s.errCmd

end Sys2Proof.Machine
end

