-- ==== Sys2Proof/Machine/Delay.lean ====
section
/-!
DEFINITION. Sys2Proof/Machine/Delay.lean: the command of 43_delay.md: DELAY (R155).
-/

namespace Sys2Proof.Machine

/-- DELAY (R155): `DelayWait()` (R150). -/
def execDelay (s : State) : Host.Outcome State Fault Refusal :=
  .next (severalMicroSteps (request (.wait .command) s) (waitStep s) s)

end Sys2Proof.Machine
end

