-- ==== Sys2Proof/Machine/Generator.lean ====
section
/-!
DEFINITION. Sys2Proof/Machine/Generator.lean: the commands of 41_lcg.md: SEED (R114), NEXT (R115), PERTURB
(R116).
-/

namespace Sys2Proof.Machine

/-- SEED (R114): `v <- ReadInput()`, then `rng <- trunc_16(rng + (zext_16(v) << 8))`. -/
def execSeed (s : State) : Host.Outcome State Fault Refusal :=
  .next (severalMicroSteps (request .seed s) (seedStep s) s)

/-- NEXT (R115): `rng <- lcg(rng, e)` and `res <- target_of` of it. -/
def execNext (e : Byte) (s : State) : Host.Outcome State Fault Refusal :=
  .next (oneMicroStep
    (writeRes (targetOf s.build.pwmMin (lcg s.rng e)) (writeRng (lcg s.rng e) s)) s)

/-- PERTURB (R116): `v <- ReadInput()`, then `rng <- trunc_16(rng + zext_16(v))`. -/
def execPerturb (s : State) : Host.Outcome State Fault Refusal :=
  .next (severalMicroSteps (request .perturb s)
    (match s.pos with
      | .await .perturb => awaitSample .perturb s
      | .apply .perturb v => applyPerturb v s
      | _ => s) s)

end Sys2Proof.Machine
end

