-- ==== Sys2Proof/Machine/Ramp.lean ====
section
/-!
DEFINITION. Sys2Proof/Machine/Ramp.lean: the commands of 42_ramp.md: SETDUTY (R138), RAMP (R139).
-/

namespace Sys2Proof.Machine

/-- SETDUTY (R138): `SetDuty(v)`, unscaled. -/
def execSetduty (v : Byte) (s : State) : Host.Outcome State Fault Refusal :=
  .next (oneMicroStep (setDuty v s) s)

/-- RAMP (R139): `RampLeg(t)` (R131), the target unscaled. -/
def execRamp (t : Byte) (s : State) : Host.Outcome State Fault Refusal :=
  .next (severalMicroSteps (legSetup t s) (legStep s) s)

end Sys2Proof.Machine
end

