-- ==== Sys2Proof/Machine/Scaler.lean ====
section
/-!
DEFINITION. Sys2Proof/Machine/Scaler.lean: the command of 40_scaler.md: SCALE (R104).
-/

namespace Sys2Proof.Machine

/-- SCALE (R104): `res <- scale(x)`. -/
def execScale (x : Byte) (s : State) : Host.Outcome State Fault Refusal :=
  .next (oneMicroStep (writeRes (scale s.build.pwmMin x) s) s)

end Sys2Proof.Machine
end

