-- ==== Sys2Proof/Machine/Sequencer.lean ====
section
/-!
DEFINITION. Sys2Proof/Machine/Sequencer.lean: the commands of 44_sequencer.md: NOP (R170), MANUAL (R171),
AUTO (R172), RUN (R173).
-/

namespace Sys2Proof.Machine

/-- NOP (R170): no micro-step; the command completes at once, in its acceptance. -/
def execNop (s : State) : Host.Outcome State Fault Refusal := .next (complete s)

/-- MANUAL (R171): `v <- ReadInput()`, then `SetDuty(scale(v))` with `rng <- trunc_16(rng + zext_16(v))`. -/
def execManual (s : State) : Host.Outcome State Fault Refusal :=
  .next (severalMicroSteps (request .manual s) (manualStep s) s)

/-- AUTO (R172): the generator's step with entropy `e`, then one ramp leg to its target. -/
def execAuto (e : Byte) (s : State) : Host.Outcome State Fault Refusal :=
  .next (severalMicroSteps (generate e s) (autoStep s) s)

/-- RUN's first micro-step of a unit of work (R173): AUTO's with `e = 0` (R174) if `mode = 1`, else
MANUAL's. -/
def unitStart (s : State) : State := if s.mode then generate 0 s else request .manual s

/-- The micro-steps of RUN after its request for the seed (R173). -/
def runStep (s : State) : State :=
  match s.pos with
  | .await .seed => awaitSample .seed s
  | .apply .seed v => applySeed v s
  | .poll => pollMode s
  | .unit => unitStart s
  | .await .manual => awaitSample .manual s
  | .apply .manual v => applyManual v s
  | _ => autoStep s

/-- RUN (R173): `run <- 1` at acceptance, the startup seed, then the dispatch loop, forever. -/
def execRun (s : State) : Host.Outcome State Fault Refusal :=
  .next (match s.pos with
    | .accept => enter { s with run := true }
    | .start => request .seed s
    | _ => runStep s)

end Sys2Proof.Machine
end

