-- ==== Sys2Proof/Machine/Dispatch.lean ====
section
/-!
DEFINITION. Sys2Proof/Machine/Dispatch.lean: the micro-step of a command at the sequencer position of the
state, one arm per command.
-/

namespace Sys2Proof.Machine

def exec (i : Instr) (s : State) : Host.Outcome State Fault Refusal :=
  match i with
  | .nop => Sys2Proof.Machine.execNop s
  | .scale x => Sys2Proof.Machine.execScale x s
  | .seed => Sys2Proof.Machine.execSeed s
  | .next e => Sys2Proof.Machine.execNext e s
  | .perturb => Sys2Proof.Machine.execPerturb s
  | .manual => Sys2Proof.Machine.execManual s
  | .setduty v => Sys2Proof.Machine.execSetduty v s
  | .delay => Sys2Proof.Machine.execDelay s
  | .ramp t => Sys2Proof.Machine.execRamp t s
  | .auto e => Sys2Proof.Machine.execAuto e s
  | .run => Sys2Proof.Machine.execRun s

end Sys2Proof.Machine
end

