-- ==== Sys2Proof/Machine/Cycle.lean ====
section
/-!
DEFINITION. Sys2Proof/Machine/Cycle.lean: what the CORE does in one step (R8): reset, the acceptance of a
word, one micro-step of the command in progress, or a wait.
-/

namespace Sys2Proof.Machine

/-- One step of the CORE. Reset outranks everything (R205, R220). A CORE that is ready accepts the word
offered (R70), raises `IllegalCommand` if it is illegal (R201), and waits if none is offered (R221). A CORE
that is not ready takes no word and performs the next micro-step of the command in `cmd` (R31). -/
def cycle (s : State) : Host.Outcome State Fault Refusal :=
  if (pinsOf s).rst then .next (resetCycle s)
  else if idleAndReady s then
    if (pinsOf s).cmdValid then
      match decode (pinsOf s).cmd with
      | .legal i => afterCommand (exec i (acceptCommand (pinsOf s).cmd (quiet s)))
      | .illegal _ => .next (illegalCycle (pinsOf s).cmd s)
    else .next (idleCycle s)
  else
    match decode s.cmd with
    | .legal i => afterCommand (exec i (quiet s))
    | .illegal _ => .fault .noCommandInProgress

end Sys2Proof.Machine
end

