-- ==== Sys2Proof/Machine/Step.lean ====
section
/-!
DEFINITION. Sys2Proof/Machine/Step.lean: one step of the machine (R8), and how a word comes to be the next
one accepted.
-/

namespace Sys2Proof.Machine

/-- One step: what the CORE does in it. -/
def step (s : State) : Host.Outcome State Fault Refusal := cycle s

/-- `s` with the word `w` offered on the command port at the coming step, to a CORE that is ready for it:
the very next step accepts it and runs its acceptance. -/
def State.withFetchWord (s : State) (nbits w : Nat) : State := offer (tableWord nbits w) s

end Sys2Proof.Machine
end

