-- ==== Sys2Proof/Machine/Assembler.lean ====
section
/-!
DEFINITION. Sys2Proof/Machine/Assembler.lean: the assembler syntax of R78 and the pseudo-instructions of R79.
A source line is a list of characters. No step of the machine uses this file: it is how a host's program
text becomes the words it offers.
-/

namespace Sys2Proof.Machine

/-- Why a source line is an assembly error (R78). -/
inductive AsmError where
  /-- The first token is no mnemonic, pseudo-instruction or directive. -/
  | unknownMnemonic
  /-- The immediate is neither a decimal number nor `0x` and hex digits. -/
  | malformedImmediate
  /-- "An immediate out of range". -/
  | immediateOutOfRange
  /-- "an immediate on a C-N mnemonic", WARMUP and OFF among them. -/
  | immediateNotAllowed
  /-- "a missing immediate on a C-I mnemonic that has no pseudo-form". -/
  | immediateMissing
  /-- More than one token after the mnemonic. -/
  | tooManyTokens
  /-- A `.word` whose operand is not `0x` and four hex digits. -/
  | malformedWord
deriving DecidableEq, Repr

/-- What a source line assembles to. -/
inductive AsmLine where
  /-- A line with no command: blank, or a comment alone. -/
  | empty
  | word (w : Word)
  | error (e : AsmError)
deriving DecidableEq, Repr

/-- A mnemonic's form: a fixed command, or an opcode that takes an immediate, with the operand of its
pseudo-form if it has one (R72, R79). -/
inductive AsmForm where
  | fixed (i : Instr)
  | immediate (op : Nat) (absent : Option Byte)
deriving DecidableEq, Repr

/-- R78, R79: the mnemonics and pseudo-instructions, in lower case. -/
def mnemonics : List (List Char × AsmForm) :=
  [ (['n', 'o', 'p'], .fixed .nop),
    (['s', 'c', 'a', 'l', 'e'], .immediate 0x1 none),
    (['s', 'e', 'e', 'd'], .fixed .seed),
    (['n', 'e', 'x', 't'], .immediate 0x3 (some 0)),
    (['p', 'e', 'r', 't', 'u', 'r', 'b'], .fixed .perturb),
    (['m', 'a', 'n', 'u', 'a', 'l'], .fixed .manual),
    (['s', 'e', 't', 'd', 'u', 't', 'y'], .immediate 0x6 none),
    (['d', 'e', 'l', 'a', 'y'], .fixed .delay),
    (['r', 'a', 'm', 'p'], .immediate 0x8 none),
    (['a', 'u', 't', 'o'], .immediate 0x9 (some 0)),
    (['r', 'u', 'n'], .fixed .run),
    (['w', 'a', 'r', 'm', 'u', 'p'], .fixed (.setduty 0xFF)),
    (['o', 'f', 'f'], .fixed (.setduty 0)) ]

/-- R78: `;` starts a comment that runs to the end of the line. -/
def withoutComment (line : List Char) : List Char := line.takeWhile (· != ';')

/-- The characters that separate tokens. DESIGN CHOICE: space and tab (log entry 8); R78 names none. -/
def isBlank (c : Char) : Bool := c == ' ' || c == '\t'

/-- The tokens of a line; `current` is the token being read, its last character first. -/
def tokensFrom (current : List Char) : List Char → List (List Char)
  | [] => if current.isEmpty then [] else [current.reverse]
  | c :: rest =>
    if isBlank c then
      if current.isEmpty then tokensFrom [] rest else current.reverse :: tokensFrom [] rest
    else tokensFrom (c :: current) rest

/-- The value of a digit, hex digits in either case. -/
def digitValue (c : Char) : Option Nat :=
  if 48 ≤ c.toNat ∧ c.toNat ≤ 57 then some (c.toNat - 48)
  else if 97 ≤ c.toNat ∧ c.toNat ≤ 102 then some (c.toNat - 87)
  else if 65 ≤ c.toNat ∧ c.toNat ≤ 70 then some (c.toNat - 55)
  else none

/-- The number that `digits` spell in `base`, most significant first, after a part worth `value`. -/
def numberFrom (base value : Nat) : List Char → Option Nat
  | [] => some value
  | c :: rest =>
    match digitValue c with
    | none => none
    | some d => if d < base then numberFrom base (value * base + d) rest else none

/-- The number that one or more digits spell. -/
def number (base : Nat) (digits : List Char) : Option Nat :=
  if digits.isEmpty then none else numberFrom base 0 digits

/-- R78: `imm` is a decimal number 0..255, or `0x` followed by one or two hex digits. -/
def immediate (token : List Char) : Except AsmError Byte :=
  match token with
  | '0' :: 'x' :: digits =>
    match number 16 digits with
    | none => .error .malformedImmediate
    | some n => if digits.length ≤ 2 then .ok (BitVec.ofNat 8 n) else .error .immediateOutOfRange
  | digits =>
    match number 10 digits with
    | none => .error .malformedImmediate
    | some n => if n ≤ 255 then .ok (BitVec.ofNat 8 n) else .error .immediateOutOfRange

/-- R78: the operand of `.word`, `0x` and four hex digits: any word, legal or not. -/
def rawWord (token : List Char) : AsmLine :=
  match token with
  | '0' :: 'x' :: digits =>
    match number 16 digits with
    | none => .error .malformedWord
    | some n => if digits.length = 4 then .word (BitVec.ofNat 16 n) else .error .malformedWord
  | _ => .error .malformedWord

/-- R78: the word of the command with opcode `op` and operand `imm`, `{op, 0000, imm8}`. -/
def wordOfOp (op : Nat) (imm : Byte) : Word :=
  wordOfFields { op := BitVec.ofNat 4 op, rsv := 0, imm := imm }

/-- R78: "Mnemonics are case-insensitive." -/
def formOf (token : List Char) : Option AsmForm :=
  mnemonics.lookup (token.map Char.toLower)

/-- A command line: a mnemonic and the tokens after it. -/
def assembleCommand (form : AsmForm) (operands : List (List Char)) : AsmLine :=
  match form, operands with
  | .fixed i, [] => .word (encode i)
  | .fixed _, _ :: _ => .error .immediateNotAllowed
  | .immediate op (some imm), [] => .word (wordOfOp op imm)
  | .immediate _ none, [] => .error .immediateMissing
  | .immediate op _, [token] =>
    match immediate token with
    | .ok imm => .word (wordOfOp op imm)
    | .error e => .error e
  | .immediate _ _, _ :: _ :: _ => .error .tooManyTokens

/-- R78: one source line. -/
def assembleLine (line : List Char) : AsmLine :=
  match tokensFrom [] (withoutComment line) with
  | [] => .empty
  | ['.', 'w', 'o', 'r', 'd'] :: operands =>
    match operands with
    | [token] => rawWord token
    | _ => .error .malformedWord
  | name :: operands =>
    match formOf name with
    | none => .error .unknownMnemonic
    | some form => assembleCommand form operands

/-- The words of a program text, in order; none if a line of it is an assembly error. -/
def assemble : List (List Char) → Option (List Word)
  | [] => some []
  | line :: rest =>
    match assembleLine line with
    | .empty => assemble rest
    | .error _ => none
    | .word w => (assemble rest).map (w :: ·)

end Sys2Proof.Machine
end

