-- ==== Sys2Proof/Safety.lean ====
section
/-!
DEFINITION. Sys2Proof/Safety.lean: what the claims speak of: kinds of events, the coming inputs, which
positions belong to which command, and the invariants of a run (R24, R25, R31, R35, R134, R135).
-/

namespace Sys2Proof.Machine

/-! ## Events -/

/-- A `SampleRead` event (R8). -/
def isSampleRead : Event → Bool
  | .sampleRead _ => true
  | _ => false

/-- A `DutyWrite` event (R8). -/
def isDutyWrite : Event → Bool
  | .dutyWrite _ => true
  | _ => false

/-- A `Tick` event (R8). -/
def isTick : Event → Bool
  | .tick => true
  | _ => false

/-- A `ModePoll` event (R8). -/
def isModePoll : Event → Bool
  | .modePoll _ => true
  | _ => false

/-- A `CmdAccept` event (R8). -/
def isCmdAccept : Event → Bool
  | .cmdAccept _ => true
  | _ => false

/-- The value of a `DutyWrite` event. -/
def dutyWritten : Event → Option Byte
  | .dutyWrite v => some v
  | _ => none

/-! ## The events of a ramp leg -/

/-- R131: `abs(t - c)`, the distance of a leg from `c` to `t`. -/
def legDistance (c t : Byte) : Nat := (legDelta c t).natAbs

/-- R136: the decision step of the j-th move (j = 1..d) of a leg of distance `d`,
`ceil((255 + 510*(j-1)) / (2*d))`. -/
def moveStep (d j : Nat) : Nat := (255 + 510 * (j - 1) + (2 * d - 1)) / (2 * d)

/-- R136: does decision step `k` of a leg of distance `d` move `duty`? -/
def movesAt (d k : Nat) : Bool := (List.range d).any fun j => moveStep d (j + 1) == k

/-- R135: `duty` after `m` moves of a leg from `c` to `t`, each one unit toward `t`. -/
def dutyAfterMoves (c t : Byte) (m : Nat) : Byte :=
  BitVec.ofNat 8 (if t.toNat < c.toNat then c.toNat - m else c.toNat + m)

/-- R136: the moves of a leg of distance `d` in its decision steps 1 to `k`. -/
def movesUpTo (d k : Nat) : Nat := (List.range d).countP fun j => moveStep d (j + 1) ≤ k

/-- R150, R152: the events of one delay wait that reads the sample `v`, in order. -/
def waitEvents (b : Build) (v : Byte) : List Event :=
  .sampleRead v :: List.replicate (ticks b.delayBudget.toNat (v.toNat + b.delayOffset.toNat)) .tick

/-- R137: the events of decision step `k` of a leg from `c` to `t` whose wait reads `v`, in order. -/
def legStepEvents (b : Build) (c t : Byte) (k : Nat) (v : Byte) : List Event :=
  (if movesAt (legDistance c t) k then
      [.dutyWrite (dutyAfterMoves c t (movesUpTo (legDistance c t) k))]
    else []) ++ waitEvents b v

/-- R137: the events of a leg from its decision step `k` on, one sample for each step, in order. -/
def legEventsFrom (b : Build) (c t : Byte) (k : Nat) : List Byte → List Event
  | [] => []
  | v :: rest => legStepEvents b c t k v ++ legEventsFrom b c t (k + 1) rest

/-- R137: the events of a whole leg whose k-th wait reads the k-th sample, in order. -/
def legEvents (b : Build) (c t : Byte) (samples : List Byte) : List Event :=
  legEventsFrom b c t 1 samples

/-- How many steps a leg takes at most when the sampler always answers at once: the set-up, and for each
of 255 decision steps the decision, the request, the read, the arming, the ticks and the count. -/
def legStepsBound (b : Build) : Nat :=
  1 + 255 * (5 + ticks b.delayBudget.toNat b.delayOffset.toNat)

/-! ## The coming inputs -/

/-- The input levels of at least the next `n` steps are fixed, and none of them asserts reset. -/
def NoReset (n : Nat) (s : State) : Prop :=
  n ≤ s.script.length ∧ ∀ p ∈ s.script.take n, p.rst = false

/-- `NoReset`, and the sampler answers whenever it is asked (R232). -/
def Answering (n : Nat) (s : State) : Prop :=
  NoReset n s ∧ ∀ p ∈ s.script.take n, p.smpAck = true

/-! ## Positions -/

/-- The positions in a ramp leg, from its first decision step to its last loop test (R131). -/
def inLeg : Pos → Bool
  | .decide => true
  | .wait => true
  | .await (.wait .leg) => true
  | .apply (.wait .leg) _ => true
  | .tick .leg => true
  | .count => true
  | _ => false

/-- The positions at which the countdown is live (R150). -/
def inCountdown : Pos → Bool
  | .tick _ => true
  | _ => false

/-- The positions at which a sampler transaction is outstanding (R33). -/
def inTransaction : Pos → Bool
  | .await _ => true
  | _ => false

/-- The positions of `ReadInput()` for `u` and of the statement after it. -/
def reading (u : SampleUse) : Pos → Bool
  | .await u' => u' == u
  | .apply u' _ => u' == u
  | _ => false

/-- The positions between the micro-steps of a command (R31). -/
def belongs : Instr → Pos → Bool
  | .nop, _ => false
  | .scale _, p => p == .start
  | .seed, p => p == .start || reading .seed p
  | .next _, p => p == .start
  | .perturb, p => p == .start || reading .perturb p
  | .manual, p => p == .start || reading .manual p
  | .setduty _, p => p == .start
  | .delay, p => p == .start || reading (.wait .command) p || p == .tick .command
  | .ramp _, p => p == .start || inLeg p
  | .auto _, .legStart _ => true
  | .auto _, p => p == .start || inLeg p
  | .run, .legStart _ => true
  | .run, p =>
    p == .start || reading .seed p || p == .poll || p == .unit || reading .manual p || inLeg p

/-! ## Invariants -/

/-- While a command is in progress, `cmd` holds it, the position is one of its own, and `run` is 1 exactly
for RUN (R21, R31). -/
def BusyHoldsACommand (s : State) : Prop :=
  s.busy = true → ∃ i, decode s.cmd = .legal i ∧ belongs i s.pos = true ∧ (s.run = true ↔ i = .run)

/-- The sequencer: idle exactly when not busy (R34, R70), `run` only while busy (R28), `smp_req` exactly
inside a transaction (R33, R52), the leg's target in `res` (R172), and the command held. -/
structure SequencerInv (s : State) : Prop where
  idle_iff : s.pos = .idle ↔ s.busy = false
  not_accept : s.pos ≠ .accept
  run_busy : s.run = true → s.busy = true
  smpReq_iff : s.smpReq = true ↔ inTransaction s.pos = true
  legStart_res : ∀ t, s.pos = .legStart t → t = s.res
  command : BusyHoldsACommand s

/-- How far `duty` is from `tgt`, counted in the direction `dir` (R131). -/
def distanceLeft (s : State) : Int :=
  if s.dir then (s.duty.toNat : Int) - s.tgt.toNat else (s.tgt.toNat : Int) - s.duty.toNat

/-- The decision steps of the leg still to come: the step in progress counts until it has decided. -/
def decisionsLeft (s : State) : Int :=
  if s.pos = .decide then s.stepsLeft.toNat else (s.stepsLeft.toNat : Int) - 1

/-- In a leg: steps remain, `acc` is in [-510, -1] (R134), `duty` has not passed `tgt` (R135), and the
accumulator, the distance and the steps left balance (the induction of R134 and R135). -/
structure LegInv (s : State) : Prop where
  steps_pos : 1 ≤ s.stepsLeft.toNat
  acc_low : -510 ≤ s.acc.toInt
  acc_high : s.acc.toInt ≤ -1
  not_passed : 0 ≤ distanceLeft s
  balance : s.acc.toInt + 255 + s.mag.toNat * decisionsLeft s = 510 * distanceLeft s

/-- In a countdown: `dly_units` is in `DELAY_OFFSET .. 255 + DELAY_OFFSET` and `dly_cnt` in
`0 .. DELAY_BUDGET` (R25, R152). -/
structure CountdownInv (s : State) : Prop where
  units_low : s.build.delayOffset.toNat ≤ s.dlyUnits.toNat
  units_high : s.dlyUnits.toNat ≤ 255 + s.build.delayOffset.toNat
  cnt_low : 0 ≤ s.dlyCnt.toInt
  cnt_high : s.dlyCnt.toInt ≤ s.build.delayBudget.toNat

/-- The ranges of the internal registers at every moment (R24, R25). -/
structure RangesInv (s : State) : Prop where
  acc_low : -510 ≤ s.acc.toInt
  acc_high : s.acc.toInt ≤ 509
  mag_high : s.mag.toNat ≤ 510
  units_high : s.dlyUnits.toNat ≤ 510
  cnt_low : -510 ≤ s.dlyCnt.toInt
  cnt_high : s.dlyCnt.toInt ≤ s.build.delayBudget.toNat

/-- What holds at every step of a run from reset. -/
structure Inv (s : State) : Prop where
  sequencer : SequencerInv s
  leg : inLeg s.pos = true → LegInv s
  countdown : inCountdown s.pos = true → CountdownInv s
  ranges : RangesInv s

/-- R35's invariant, with what it needs of the command in progress: `duty` and every target on the way to
becoming `duty` are at least `PWM_MIN`. -/
structure DutyFloor (s : State) : Prop where
  duty_floor : s.build.pwmMin.toNat ≤ s.duty.toNat
  target_floor : inLeg s.pos = true → s.build.pwmMin.toNat ≤ s.tgt.toNat
  legStart_floor : ∀ t, s.pos = .legStart t → s.build.pwmMin.toNat ≤ t.toNat
  setduty_floor : s.busy = true → ∀ v, decode s.cmd = .legal (.setduty v) → s.build.pwmMin.toNat ≤ v.toNat
  ramp_floor : s.busy = true → ∀ t, decode s.cmd = .legal (.ramp t) → s.build.pwmMin.toNat ≤ t.toNat

/-- R35's conditions on the block and the host at one step: `INIT_DUTY >= PWM_MIN`, and a SETDUTY or RAMP
operand offered is at least `PWM_MIN`. -/
structure FloorRespected (s : State) : Prop where
  init_floor : s.build.pwmMin.toNat ≤ s.build.initDuty.toNat
  setduty_offered : (pinsOf s).cmdValid = true →
    ∀ v, decode (pinsOf s).cmd = .legal (.setduty v) → s.build.pwmMin.toNat ≤ v.toNat
  ramp_offered : (pinsOf s).cmdValid = true →
    ∀ t, decode (pinsOf s).cmd = .legal (.ramp t) → s.build.pwmMin.toNat ≤ t.toNat

/-! ## What a run may not depend on -/

/-- The state with the internal registers forgotten where they are dead (R32): those of a leg outside a
leg, those of the countdown outside a countdown. -/
def forgetDead (s : State) : State :=
  { s with
    tgt := if inLeg s.pos then s.tgt else 0
    acc := if inLeg s.pos then s.acc else 0
    dir := inLeg s.pos && s.dir
    mag := if inLeg s.pos then s.mag else 0
    stepsLeft := if inLeg s.pos then s.stepsLeft else 0
    dlyUnits := if inCountdown s.pos then s.dlyUnits else 0
    dlyCnt := if inCountdown s.pos then s.dlyCnt else 0 }

/-- `forgetDead` of the outcome of a step. -/
def forgetDeadAfter : Host.Outcome State Fault Refusal → Host.Outcome State Fault Refusal
  | .next s => .next (forgetDead s)
  | .fault r => .fault r
  | .refused r => .refused r

/-- The state with other levels on its input ports at the coming step. -/
def withPins (p : Pins) (s : State) : State := { s with script := p :: s.script.tail }

end Sys2Proof.Machine
end

