-- ==== Sys2Proof/Certificates/Slice0/Obligations.lean ====
section
/-!
DEFINITION. Sys2Proof/Certificates/Slice0/Obligations.lean: the statements for the provers, each from the
numbered rules of spec/ that its docstring names.
-/

open Sys2Proof Sys2Proof.Machine

/-! ## Encoding -/

/-- R71, R74, R78: every command's word decodes to that command, with its operand at every value. -/
def Obligations.EncodedCommandDecodes : Prop :=
  ∀ i : Instr, wellFormed i = true → decode (encode i) = .legal i

/-- R71, R75: a word that decodes to a command is that command's word: no two words mean one command. -/
def Obligations.LegalWordIsItsCommandsWord : Prop :=
  ∀ (w : Word) (i : Instr), decode w = .legal i → encode i = w

/-- R74: a word is a row's command exactly when `w & mask = match`; the rows are exclusive. -/
def Obligations.DecodeFollowsTheOpcodeMap : Prop :=
  ∀ w : Word,
    (isLegal (decode w) = true ↔ ∃ r ∈ opcodeMap, rowMatches r w = true) ∧
    (∀ r ∈ opcodeMap, rowMatches r w = true →
      ∃ i, decode w = .legal i ∧ commandOfOp r.op (w.extractLsb' 0 8) = some i) ∧
    (∀ r ∈ opcodeMap, ∀ r' ∈ opcodeMap, rowMatches r w = true → rowMatches r' w = true → r = r')

/-- R75: the three tests in their order, the command otherwise, and the counts of legal and illegal
words. -/
def Obligations.DecodingIsTotalAndCounted : Prop :=
  (∀ w : Word,
    decode w =
      if 0xB ≤ (w.extractLsb' 12 4).toNat then .illegal .reservedOp
      else if w.extractLsb' 8 4 ≠ 0 then .illegal .reservedBits
      else if (w.extractLsb' 12 4).toNat ∈ [0x0, 0x2, 0x4, 0x5, 0x7, 0xA] ∧ w.extractLsb' 0 8 ≠ 0 then
        .illegal .operandOnCN
      else
        match (w.extractLsb' 12 4).toNat with
        | 0x0 => .legal .nop
        | 0x1 => .legal (.scale (w.extractLsb' 0 8))
        | 0x2 => .legal .seed
        | 0x3 => .legal (.next (w.extractLsb' 0 8))
        | 0x4 => .legal .perturb
        | 0x5 => .legal .manual
        | 0x6 => .legal (.setduty (w.extractLsb' 0 8))
        | 0x7 => .legal .delay
        | 0x8 => .legal (.ramp (w.extractLsb' 0 8))
        | 0x9 => .legal (.auto (w.extractLsb' 0 8))
        | _ => .legal .run) ∧
  (∃ l : List Word, l.Nodup ∧ l.length = 1286 ∧ ∀ w, w ∈ l ↔ isLegal (decode w) = true) ∧
  (∃ l : List Word, l.Nodup ∧ l.length = 64250 ∧ ∀ w, w ∈ l ↔ isLegal (decode w) = false)

/-- Spec 95 section 2.1: words the spec writes out, and what they decode as. -/
def Obligations.SpecWordsDecode : Prop :=
  decode 0x0000 = .legal .nop ∧ decode 0x1080 = .legal (.scale 0x80) ∧ decode 0x2000 = .legal .seed ∧
  decode 0x30FF = .legal (.next 0xFF) ∧ decode 0x4000 = .legal .perturb ∧
  decode 0x5000 = .legal .manual ∧ decode 0x60FF = .legal (.setduty 0xFF) ∧
  decode 0x7000 = .legal .delay ∧ decode 0x8000 = .legal (.ramp 0x00) ∧
  decode 0x9000 = .legal (.auto 0x00) ∧ decode 0xA000 = .legal .run ∧
  decode 0x0001 = .illegal .operandOnCN ∧ decode 0x0100 = .illegal .reservedBits ∧
  decode 0xB000 = .illegal .reservedOp

/-- R79: the pseudo-instructions assemble to the words of their expansions. -/
def Obligations.PseudoInstructionsExpand : Prop :=
  assembleLine ['W', 'A', 'R', 'M', 'U', 'P'] = .word 0x60FF ∧
  assembleLine ['N', 'E', 'X', 'T'] = .word 0x3000 ∧
  assembleLine ['A', 'U', 'T', 'O'] = .word 0x9000 ∧
  assembleLine ['O', 'F', 'F'] = .word 0x6000

/-! ## The step, the handshake, the exception and reset -/

/-- R70: a ready CORE that is offered a legal word accepts it: `cmd <- w`, `CmdAccept(w)`, `busy <- 1`, and
the step is the command's own meaning at its acceptance (log entry 3). -/
def Obligations.AcceptedWordRunsItsCommand : Prop :=
  ∀ (s : State) (i : Instr),
    (pinsOf s).rst = false → s.busy = false → s.run = false → (pinsOf s).cmdValid = true →
    decode (pinsOf s).cmd = .legal i →
    step s = afterCommand (exec i
      { s with
        pwmWe := false, cmd := (pinsOf s).cmd, busy := true, pos := .accept,
        trace := .cmdAccept (pinsOf s).cmd :: s.trace })

/-- R31, R70: while a command is in progress, a step without reset is that command's meaning at the
sequencer position; after a meaning the step uses up its input levels and does nothing else (log entry
2). -/
def Obligations.CommandInProgressRunsOn : Prop :=
  ∀ (s : State) (i : Instr),
    (pinsOf s).rst = false → (s.busy = true ∨ s.run = true) → decode s.cmd = .legal i →
    step s = afterCommand (exec i { s with pwmWe := false }) ∧
    ∀ u, afterCommand (.next u) = .next { u with script := u.script.tail, time := u.time + 1 }

/-- R70, R173: acceptance puts a command with micro-steps at its first one, with nothing else done; RUN's
acceptance also sets `run`. That the first micro-step is the next step is the model's choice (log entry 3). -/
def Obligations.AcceptanceEntersTheCommand : Prop :=
  ∀ (s : State) (i : Instr), s.pos = .accept → i ≠ .nop →
    exec i s = .next { s with pos := .start, run := if i = .run then true else s.run }

/-- R201: an illegal word sets `err`, and `err_cmd` if `err` was 0; `busy` stays 0 and no other register
changes. That `cmd` takes the word is the model's reading of R70 (log entry 5). -/
def Obligations.IllegalWordSetsErrAlone : Prop :=
  ∀ (s : State) (why : Illegal),
    (pinsOf s).rst = false → s.busy = false → s.run = false → (pinsOf s).cmdValid = true →
    decode (pinsOf s).cmd = .illegal why →
    step s = .next
      { s with
        pwmWe := false, cmd := (pinsOf s).cmd, err := true,
        errCmd := if s.err then s.errCmd else (pinsOf s).cmd,
        trace := .cmdAccept (pinsOf s).cmd :: s.trace,
        script := s.script.tail, time := s.time + 1 }

/-- R70: a word offered while `cmd_ready = 0` is not accepted: no `CmdAccept`, and `cmd`, `err` and
`err_cmd` stay. -/
def Obligations.NoAcceptanceWhileNotReady : Prop :=
  ∀ s t : State,
    (pinsOf s).rst = false → (s.busy = true ∨ s.run = true) → step s = .next t →
    t.cmd = s.cmd ∧ t.err = s.err ∧ t.errCmd = s.errCmd ∧
    (t.trace.countP isCmdAccept = s.trace.countP isCmdAccept) ∧ (outputs s).cmdReady = false

/-- R220, R34, R205, R224: a step with `rst = 1`, whatever else is on the ports and in progress, sets every
register to its reset value, emits no event, does not strobe the PWM port and leaves the external register;
`cmd_ready`, `smp_req` and `pwm_we` are held at 0 in that cycle, also right after a strobe. -/
def Obligations.ResetSetsEveryRegister : Prop :=
  ∀ s : State, (pinsOf s).rst = true →
    (outputs s).cmdReady = false ∧ (outputs s).smpReq = false ∧ (outputs s).pwmWe = false ∧
    step s = .next
      { duty := s.build.initDuty, rng := s.build.rngInit, res := 0, tgt := 0, acc := 0, dir := false,
        mag := 0, stepsLeft := 0, dlyUnits := 0, dlyCnt := 0, mode := false, run := false,
        busy := false, err := false, errCmd := 0, cmd := 0, pos := .idle, smpReq := false,
        pwmWe := false, pwmReg := s.pwmReg, build := s.build, trace := s.trace,
        script := s.script.tail, time := s.time + 1 }

/-- R34: the values after reset; reset writes no PWM value, and `pwm_duty` shows `INIT_DUTY`. -/
def Obligations.ResetLeavesTheSpecsValues : Prop :=
  State.reset.duty = 0xFF ∧ State.reset.rng = 0x0000 ∧ State.reset.res = 0x00 ∧
  State.reset.tgt = 0 ∧ State.reset.acc = 0 ∧ State.reset.dir = false ∧ State.reset.mag = 0 ∧
  State.reset.stepsLeft = 0 ∧ State.reset.dlyUnits = 0 ∧ State.reset.dlyCnt = 0 ∧
  State.reset.mode = false ∧ State.reset.run = false ∧ State.reset.busy = false ∧
  State.reset.err = false ∧ State.reset.errCmd = 0x0000 ∧ State.reset.cmd = 0x0000 ∧
  State.reset.pos = .idle ∧ State.reset.smpReq = false ∧ State.reset.pwmWe = false ∧
  idleAndReady State.reset = true ∧ status State.reset = 0x00 ∧
  (outputs State.reset).pwmDuty = State.reset.build.initDuty ∧ State.reset.build.initDuty = 0xFF ∧
  (∀ s : State, (resetRegisters s).pwmWe = false ∧ (resetRegisters s).pwmReg = s.pwmReg)

/-- R221: with no reset and no word offered, a ready CORE changes no register and emits no event. -/
def Obligations.ReadyCoreWaitsForACommand : Prop :=
  ∀ s : State, (pinsOf s).rst = false → s.busy = false → s.run = false → (pinsOf s).cmdValid = false →
    step s = .next { s with pwmWe := false, script := s.script.tail, time := s.time + 1 }

/-- R6, R8, R12: a step changes no build parameter, emits at most one event and takes none back. -/
def Obligations.StepKeepsTheBuildAndEmitsAtMostOneEvent : Prop :=
  ∀ s t : State, step s = .next t →
    t.build = s.build ∧ (t.trace = s.trace ∨ ∃ e, t.trace = e :: s.trace)

/-- R28: STATUS shows `busy`, `run`, `mode` and `err` in bits 0 to 3, and bits 7:4 are 0. -/
def Obligations.StatusShowsItsFields : Prop :=
  ∀ s : State,
    (status s).getLsbD 0 = s.busy ∧ (status s).getLsbD 1 = s.run ∧ (status s).getLsbD 2 = s.mode ∧
    (status s).getLsbD 3 = s.err ∧ (status s).extractLsb' 4 4 = 0 ∧ (outputs s).statusQ = status s

/-! ## Whole-machine rules -/

/-- The invariant holds at reset. -/
def Obligations.InvariantHoldsAtReset : Prop := Inv State.reset

/-- R24, R25, R31, R134, R135: every step keeps the invariant, from every state that has it. -/
def Obligations.EveryStepKeepsTheInvariant : Prop :=
  ∀ s t : State, Inv s → step s = .next t → Inv t

/-- R200: no command raises an exception, for any operand, state or sample value; and no step of a machine
with the invariant stops. -/
def Obligations.NoCommandAndNoStepStops : Prop :=
  (∀ (i : Instr) (s : State), ∃ t, exec i s = .next t) ∧ (∀ s : State, Inv s → ∃ t, step s = .next t)

/-- R35: `duty` never falls below `PWM_MIN` on a block and host that respect R35's conditions. -/
def Obligations.DutyStaysAboveTheFloor : Prop :=
  (State.reset.build.pwmMin.toNat ≤ State.reset.build.initDuty.toNat ∧ DutyFloor State.reset) ∧
  ∀ s t : State, Inv s → DutyFloor s → FloorRespected s → step s = .next t → DutyFloor t

/-- R22, R53: `duty` and the PWM port change together: a step without reset either strobes the port with the
new `duty`, which the external register takes, or leaves `duty` and the port alone. -/
def Obligations.DutyAndPwmPortMoveTogether : Prop :=
  ∀ s t : State, (pinsOf s).rst = false → step s = .next t →
    (t.pwmWe = true ∧ t.pwmReg = t.duty ∧ t.trace = .dutyWrite t.duty :: s.trace) ∨
    (t.pwmWe = false ∧ t.duty = s.duty ∧ t.pwmReg = s.pwmReg ∧
      t.trace.countP isDutyWrite = s.trace.countP isDutyWrite)

/-- R21, R23: `duty`, `rng` and `res` change only by reset or in a micro-step of a command the spec lists
for them. -/
def Obligations.DataRegistersHaveTheirWriters : Prop :=
  ∀ s t : State, (pinsOf s).rst = false → step s = .next t →
    (t.rng ≠ s.rng → (s.busy = true ∨ s.run = true) ∧
      (decode s.cmd = .legal .seed ∨ (∃ e, decode s.cmd = .legal (.next e)) ∨
        decode s.cmd = .legal .perturb ∨ decode s.cmd = .legal .manual ∨
        (∃ e, decode s.cmd = .legal (.auto e)) ∨ decode s.cmd = .legal .run)) ∧
    (t.res ≠ s.res → (s.busy = true ∨ s.run = true) ∧
      ((∃ x, decode s.cmd = .legal (.scale x)) ∨ (∃ e, decode s.cmd = .legal (.next e)) ∨
        (∃ e, decode s.cmd = .legal (.auto e)) ∨ decode s.cmd = .legal .run)) ∧
    (t.duty ≠ s.duty → (s.busy = true ∨ s.run = true) ∧
      ((∃ v, decode s.cmd = .legal (.setduty v)) ∨ decode s.cmd = .legal .manual ∨
        (∃ e, decode s.cmd = .legal (.ramp e)) ∨ (∃ e, decode s.cmd = .legal (.auto e)) ∨
        decode s.cmd = .legal .run))

/-- R175, R176: `mode` changes, and a mode poll happens, only at RUN's poll. -/
def Obligations.ModeChangesOnlyAtThePoll : Prop :=
  ∀ s t : State, (pinsOf s).rst = false → step s = .next t →
    (t.mode ≠ s.mode ∨ t.trace.countP isModePoll ≠ s.trace.countP isModePoll) →
    s.pos = .poll ∧ decode s.cmd = .legal .run ∧ t.mode = ((pinsOf s).modeSw == s.build.modeAutoLevel)

/-- R207: no step but reset clears `err`, and a later illegal word leaves `err_cmd`. -/
def Obligations.ErrIsSticky : Prop :=
  ∀ s t : State, (pinsOf s).rst = false → s.err = true → step s = .next t →
    t.err = true ∧ t.errCmd = s.errCmd

/-- R173, R28: RUN never completes: without reset, `run` and `busy` stay 1 and no command is accepted. -/
def Obligations.RunNeverCompletes : Prop :=
  ∀ s t : State, (pinsOf s).rst = false → s.run = true → s.busy = true → step s = .next t →
    t.run = true ∧ t.busy = true ∧ t.cmd = s.cmd ∧ (outputs t).cmdReady = false

/-- R32: no result depends on the internal registers' values before a leg or a wait sets them: two states
that differ only in dead internal registers take steps that differ only in dead internal registers. -/
def Obligations.DeadRegistersNeverMatter : Prop :=
  ∀ s t : State, forgetDead s = forgetDead t → forgetDeadAfter (step s) = forgetDeadAfter (step t)

/-- R52, R54, R176: without a request outstanding `smp_ack` and `smp_data` are ignored, and `mode_sw` is read
nowhere but at the poll. -/
def Obligations.UnreadInputsAreIgnored : Prop :=
  (∀ (s : State) (a : Bool) (d : Byte), s.smpReq = false →
    step (withPins { pinsOf s with smpAck := a, smpData := d } s) = step (withPins (pinsOf s) s)) ∧
  (∀ (s : State) (b : Bool), s.pos ≠ .poll →
    step (withPins { pinsOf s with modeSw := b } s) = step (withPins (pinsOf s) s))

/-! ## The scaler -/

/-- R100: the scaler's formula on numbers, with no wrap. -/
def Obligations.ScaleIsTheSpecsFormula : Prop :=
  ∀ m x : Byte,
    (scale m x).toNat = (x.toNat * (255 - m.toNat) + 127) / 255 + m.toNat ∧
    x.toNat * (255 - m.toNat) + 127 ≤ 65152

/-- R101, R102: range, endpoints, monotonicity, the identity at `PWM_MIN = 0`, and the 194 values at 62. -/
def Obligations.ScaleRangeEndpointsAndMonotonicity : Prop :=
  (∀ m x : Byte, m.toNat ≤ (scale m x).toNat ∧ (scale m x).toNat ≤ 255) ∧
  (∀ m : Byte, scale m 0 = m ∧ scale m 255 = 255) ∧
  (∀ m a b : Byte, a.toNat < b.toNat → (scale m a).toNat ≤ (scale m b).toNat) ∧
  (∀ x : Byte, scale 0 x = x) ∧
  ((List.range 256).map fun x => scale 62 (BitVec.ofNat 8 x)).dedup.length = 194 ∧
  scale 62 2 = 0x40 ∧ scale 62 3 = 0x40

/-- R103: the bias gives round-to-nearest of `x*(255-PWM_MIN)/255`, with no half-way case. -/
def Obligations.ScaleRoundsToNearest : Prop :=
  ∀ m x : Byte,
    2 * (255 * ((scale m x).toNat - m.toNat : Int) - x.toNat * (255 - m.toNat : Int)).natAbs < 255

/-- R104, R70: SCALE's word, and its micro-step: `res <- scale(x)` and the command's end; no other register
changes and no event is emitted. That `busy <- 0` comes in this micro-step is the model's choice (log entry
4). -/
def Obligations.ScaleWritesResAlone : Prop :=
  ∀ (x : Byte) (s : State),
    encode (.scale x) = 0x1000 ||| x.setWidth 16 ∧
    (s.pos = .start → s.run = false →
      exec (.scale x) s =
        .next { s with
          res := BitVec.ofNat 8
            ((x.toNat * (255 - s.build.pwmMin.toNat) + 127) / 255 + s.build.pwmMin.toNat),
          busy := false, pos := .idle })

/-! ## The generator -/

/-- R110, R113: `lcg(s, e) = (5*s + 0x3333 + e) mod 2^16`; with `e = 0`, bit 0 alternates at every step. -/
def Obligations.LcgIsTheRecurrence : Prop :=
  ∀ (s : Word) (e : Byte),
    (lcg s e).toNat = (5 * s.toNat + 0x3333 + e.toNat) % 2 ^ 16 ∧
    (lcg s 0).getLsbD 0 = !s.getLsbD 0

/-- R112: with `e = 0` the generator passes through all 65536 states before it repeats, from every start
state. -/
def Obligations.LcgHasFullPeriod : Prop :=
  ∀ s : Word,
    (fun x => lcg x 0)^[65536] s = s ∧
    (∀ k, 0 < k → k < 65536 → (fun x => lcg x 0)^[k] s ≠ s) ∧
    (∀ x : Word, ∃ k, k < 65536 ∧ (fun x => lcg x 0)^[k] s = x)

/-- R114: SEED requests one sample, and after its read adds `v` into the high byte of `rng`; nothing else
changes. That the request, the answer and the addition are steps of their own is the model's choice (log
entries 3 and 4). -/
def Obligations.SeedFoldsASampleIntoTheHighByte : Prop :=
  ∀ (s : State) (v : Byte), s.run = false →
    (s.pos = .start → exec .seed s = .next { s with smpReq := true, pos := .await .seed }) ∧
    (s.pos = .apply .seed v →
      exec .seed s =
        .next { s with
          rng := BitVec.ofNat 16 (s.rng.toNat + v.toNat * 256), busy := false, pos := .idle })

/-- R115, R110, R111, R70: NEXT's word, and its micro-step: it writes `rng` and `res`, and the command ends;
no other register changes and no event is emitted. That both writes and `busy <- 0` share this micro-step is
the model's choice (log entry 4). -/
def Obligations.NextStepsTheGenerator : Prop :=
  ∀ (e : Byte) (s : State),
    encode (.next e) = 0x3000 ||| e.setWidth 16 ∧
    (s.pos = .start → s.run = false →
      exec (.next e) s =
        .next { s with
          rng := BitVec.ofNat 16 (5 * s.rng.toNat + 0x3333 + e.toNat),
          res := scale s.build.pwmMin
            (BitVec.ofNat 8 ((5 * s.rng.toNat + 0x3333 + e.toNat) % 65536 / 256)),
          busy := false, pos := .idle })

/-- R116: PERTURB requests one sample, and after its read adds `v` into `rng`; nothing else changes. The
steps are those of SEED (log entries 3 and 4). -/
def Obligations.PerturbAddsASample : Prop :=
  ∀ (s : State) (v : Byte), s.run = false →
    (s.pos = .start → exec .perturb s = .next { s with smpReq := true, pos := .await .perturb }) ∧
    (s.pos = .apply .perturb v →
      exec .perturb s =
        .next { s with rng := BitVec.ofNat 16 (s.rng.toNat + v.toNat), busy := false, pos := .idle })

/-- R52, R233: inside `ReadInput()`, of whatever command: an answer is latched, `smp_req` falls and one
`SampleRead(v)` is emitted; without an answer nothing changes, and nothing is recorded. -/
def Obligations.SamplerTransaction : Prop :=
  ∀ (i : Instr) (u : SampleUse) (s : State),
    belongs i (.await u) = true → s.pos = .await u → s.smpReq = true →
    ((pinsOf s).smpAck = true →
      exec i s = .next { s with
        smpReq := false, pos := .apply u (pinsOf s).smpData,
        trace := .sampleRead (pinsOf s).smpData :: s.trace }) ∧
    ((pinsOf s).smpAck = false → exec i s = .next s)

/-! ## The ramp -/

/-- R138, R53, R70: SETDUTY's word, and its micro-step: it writes `duty` and strobes the PWM port once, at
every value, the old one too. That `busy <- 0` comes in this micro-step, and the external register's load
too, is the model's choice (log entries 4 and 6). -/
def Obligations.SetdutyWritesAndStrobes : Prop :=
  ∀ (v : Byte) (s : State),
    encode (.setduty v) = 0x6000 ||| v.setWidth 16 ∧
    (s.pos = .start → s.run = false →
      exec (.setduty v) s =
        .next { s with
          duty := v, pwmWe := true, pwmReg := v, trace := .dutyWrite v :: s.trace,
          busy := false, pos := .idle })

/-- R131, R133: the first statements of a leg: RAMP's first micro-step, and AUTO's and RUN's once they have
a target. That they are one micro-step of their own is the model's choice (log entry 4). -/
def Obligations.LegSetup : Prop :=
  ∀ (t e : Byte) (s : State),
    (s.pos = .start →
      exec (.ramp t) s =
        .next { s with
          tgt := t, dir := decide (t.toNat < s.duty.toNat),
          mag := BitVec.ofNat 10 (2 * ((t.toNat : Int) - s.duty.toNat).natAbs),
          acc := BitVec.ofInt 16 (-255), stepsLeft := 255, pos := .decide }) ∧
    (∀ t', s.pos = .legStart t' → ∀ i, i = .auto e ∨ i = .run →
      exec i s =
        .next { s with
          tgt := t', dir := decide (t'.toNat < s.duty.toNat),
          mag := BitVec.ofNat 10 (2 * ((t'.toNat : Int) - s.duty.toNat).natAbs),
          acc := BitVec.ofInt 16 (-255), stepsLeft := 255, pos := .decide })

/-- R132: one decision step, the same for RAMP, AUTO and RUN: add `mag`; if the sum is not negative,
subtract 510 and move `duty` one unit in the direction `dir`, with one strobe and one `DutyWrite`. That all of
it is one micro-step, the PWM write and the external register's load included, is the model's choice (log
entries 4 and 6). -/
def Obligations.DecisionStepMovesAtMostOneUnit : Prop :=
  ∀ (i : Instr) (s : State), belongs i .decide = true → s.pos = .decide →
    exec i s =
      if 0 ≤ (s.acc + s.mag.setWidth 16).toInt then
        .next { s with
          acc := s.acc + s.mag.setWidth 16 - 510,
          duty := if s.dir then s.duty - 1 else s.duty + 1,
          pwmWe := true,
          pwmReg := if s.dir then s.duty - 1 else s.duty + 1,
          trace := .dutyWrite (if s.dir then s.duty - 1 else s.duty + 1) :: s.trace,
          pos := .wait }
      else .next { s with acc := s.acc + s.mag.setWidth 16, pos := .wait }

/-- R131: after a decision step the leg requests its sample, and after a wait it counts the step: another
decision step, or the end of the leg, where RAMP and AUTO complete and RUN polls again. That the count is a
micro-step of its own is the model's choice (log entry 4). -/
def Obligations.LegLoopCountsItsSteps : Prop :=
  ∀ (i : Instr) (s : State), belongs i .count = true →
    (s.pos = .wait → exec i s = .next { s with smpReq := true, pos := .await (.wait .leg) }) ∧
    (s.pos = .count → s.stepsLeft ≠ 1 →
      exec i s = .next { s with stepsLeft := s.stepsLeft - 1, pos := .decide }) ∧
    (s.pos = .count → s.stepsLeft = 1 → s.run = false →
      exec i s = .next { s with stepsLeft := 0, busy := false, pos := .idle }) ∧
    (s.pos = .count → s.stepsLeft = 1 → s.run = true →
      exec i s = .next { s with stepsLeft := 0, pos := .poll })

/-- R134: in a leg, `acc` just after the addition lies in [-510, 509] and does not overflow, after the
decision step in [-510, -1], and at the end of the leg it is -255. -/
def Obligations.AccumulatorStaysInBounds : Prop :=
  (∀ (i : Instr) (s t : State), belongs i .decide = true → s.pos = .decide → Inv s → exec i s = .next t →
    (s.acc + s.mag.setWidth 16).toInt = s.acc.toInt + s.mag.toNat ∧
    -510 ≤ s.acc.toInt + s.mag.toNat ∧ s.acc.toInt + s.mag.toNat ≤ 509 ∧
    -510 ≤ t.acc.toInt ∧ t.acc.toInt ≤ -1) ∧
  (∀ s : State, Inv s → s.pos = .count → s.stepsLeft = 1 → s.acc.toInt = -255)

/-- R135: a move of a leg neither wraps nor passes the target but brings `duty` one unit nearer, and at the
last count of the leg `duty` is the target. -/
def Obligations.MovesNeverWrapAndReachTheTarget : Prop :=
  (∀ s : State, Inv s → s.pos = .decide → 0 ≤ (s.acc + s.mag.setWidth 16).toInt →
    if s.dir then s.tgt.toNat < s.duty.toNat ∧ (s.duty - 1).toNat = s.duty.toNat - 1
    else s.duty.toNat < s.tgt.toNat ∧ (s.duty + 1).toNat = s.duty.toNat + 1) ∧
  (∀ s : State, Inv s → s.pos = .count → s.stepsLeft = 1 → s.duty = s.tgt)

/-- R133, R135, R136, R137, R139: RAMP, from its first micro-step, with a sampler that answers, ends idle
with `duty = t` after exactly 255 reads, and its events are those of R137 at the moves of R136: DutyWrites
one unit apart from the old `duty` to `t`, none if they are equal. The bound counts the model's steps (log
entries 3 and 4), over input levels given in advance (log entry 2). -/
def Obligations.RampRunsOneWholeLeg : Prop :=
  ∀ (s : State) (t : Byte),
    s.busy = true → s.run = false → s.pos = .start → decode s.cmd = .legal (.ramp t) →
    Answering (legStepsBound s.build) s →
    ∃ (n : Nat) (u : State) (samples : List Byte),
      Host.Core.run Sys2Proof.core n s = .next u ∧ n ≤ legStepsBound s.build ∧ samples.length = 255 ∧
      u.trace = (legEvents s.build s.duty t samples).reverse ++ s.trace ∧
      u.duty = t ∧ u.tgt = t ∧ u.acc = BitVec.ofInt 16 (-255) ∧ u.stepsLeft = 0 ∧
      u.busy = false ∧ u.pos = .idle ∧ u.rng = s.rng ∧ u.res = s.res ∧ u.mode = s.mode ∧
      u.run = false ∧ u.err = s.err ∧ u.errCmd = s.errCmd ∧ u.cmd = s.cmd

/-- R135: the DutyWrites of a leg's events are exactly the `abs(t - c)` values on the way, each one unit
further toward `t`, the last one `t`. -/
def Obligations.LegEventsMoveOneUnitAtATime : Prop :=
  ∀ (b : Build) (c t : Byte) (samples : List Byte), samples.length = 255 →
    (legEvents b c t samples).filterMap dutyWritten =
      (List.range (legDistance c t)).map fun k =>
        BitVec.ofNat 8 (if t.toNat < c.toNat then c.toNat - (k + 1) else c.toNat + (k + 1))

/-- R136: the number of moves in the first `k` decision steps of a leg of distance `d`, in closed form. -/
def Obligations.MovesAreSpreadEvenly : Prop :=
  ∀ d k : Nat, 1 ≤ d → d ≤ 255 → k ≤ 255 →
    movesUpTo d k = (2 * d * k + 255) / 510 ∧
    (∀ j, 1 ≤ j → j ≤ d → 1 ≤ moveStep d j ∧ moveStep d j ≤ 255) ∧
    (∀ j, 1 ≤ j → j < d → moveStep d j < moveStep d (j + 1))

/-! ## The delay -/

/-- R150, R151: after its read a wait sets `dly_units` (a 9-bit sum, no wrap) and `dly_cnt`; a tick
subtracts, emits `Tick`, and ends the wait exactly when the result is negative: DELAY then completes, a leg
counts its step. That the two assignments are a micro-step of their own is the model's choice (log entry 4). -/
def Obligations.DelayWaitMicroSteps : Prop :=
  ∀ (s : State) (v : Byte),
    (s.pos = .start → exec .delay s = .next { s with smpReq := true, pos := .await (.wait .command) }) ∧
    (∀ i w, belongs i (.tick w) = true → s.pos = .apply (.wait w) v →
      exec i s = .next { s with
        dlyUnits := BitVec.ofNat 9 (v.toNat + s.build.delayOffset.toNat),
        dlyCnt := BitVec.ofNat 16 s.build.delayBudget.toNat, pos := .tick w }) ∧
    (∀ i w, belongs i (.tick w) = true → s.pos = .tick w →
      0 ≤ (s.dlyCnt - s.dlyUnits.setWidth 16).toInt →
      exec i s = .next { s with
        dlyCnt := s.dlyCnt - s.dlyUnits.setWidth 16, trace := .tick :: s.trace }) ∧
    (s.pos = .tick .command → (s.dlyCnt - s.dlyUnits.setWidth 16).toInt < 0 → s.run = false →
      exec .delay s = .next { s with
        dlyCnt := s.dlyCnt - s.dlyUnits.setWidth 16, trace := .tick :: s.trace,
        busy := false, pos := .idle }) ∧
    (∀ i, belongs i (.tick .leg) = true → s.pos = .tick .leg →
      (s.dlyCnt - s.dlyUnits.setWidth 16).toInt < 0 →
      exec i s = .next { s with
        dlyCnt := s.dlyCnt - s.dlyUnits.setWidth 16, trace := .tick :: s.trace, pos := .count })

/-- R152, R155: DELAY, from its first micro-step, with a sampler that answers `v` at once, emits
`SampleRead(v)` and exactly `ticks(v + DELAY_OFFSET)` Ticks, and ends idle with
`dly_cnt = B - du*ticks(du)`. -/
def Obligations.DelayRunsOneWholeWait : Prop :=
  ∀ (s : State) (p q : Pins) (rest : List Pins),
    s.busy = true → s.run = false → s.pos = .start → decode s.cmd = .legal .delay →
    s.script = p :: q :: rest →
    NoReset (3 + ticks s.build.delayBudget.toNat (q.smpData.toNat + s.build.delayOffset.toNat)) s →
    q.smpAck = true →
    ∃ u : State,
      Host.Core.run Sys2Proof.core
        (3 + ticks s.build.delayBudget.toNat (q.smpData.toNat + s.build.delayOffset.toNat)) s = .next u ∧
      u.trace = (waitEvents s.build q.smpData).reverse ++ s.trace ∧
      u.dlyUnits.toNat = q.smpData.toNat + s.build.delayOffset.toNat ∧
      u.dlyCnt.toInt = s.build.delayBudget.toNat - (q.smpData.toNat + s.build.delayOffset.toNat : Int) *
        ticks s.build.delayBudget.toNat (q.smpData.toNat + s.build.delayOffset.toNat) ∧
      u.busy = false ∧ u.pos = .idle ∧ u.duty = s.duty ∧ u.rng = s.rng ∧ u.res = s.res ∧
      u.pwmReg = s.pwmReg

/-- R153: `ticks(du)` is non-increasing in `du`, so in the sample; it is not strictly decreasing. -/
def Obligations.TicksNeverIncreaseWithTheSample : Prop :=
  (∀ b du du' : Nat, 1 ≤ du → du ≤ du' → ticks b du' ≤ ticks b du) ∧
  (∀ b o s s' : Nat, 1 ≤ o → s ≤ s' → ticks b (s' + o) ≤ ticks b (s + o)) ∧
  ticks 8192 200 = 41 ∧ ticks 8192 201 = 41

/-- R154: a leg's ticks lie between 255 waits at input 255 and 255 waits at input 0. -/
def Obligations.LegTicksAreBounded : Prop :=
  ∀ (b : Build) (c t : Byte) (samples : List Byte), samples.length = 255 →
    255 * ticks b.delayBudget.toNat (255 + b.delayOffset.toNat) ≤
      (legEvents b c t samples).countP isTick ∧
    (legEvents b c t samples).countP isTick ≤ 255 * ticks b.delayBudget.toNat b.delayOffset.toNat

/-! ## The units of work -/

/-- R170: NOP completes in its acceptance and does nothing else; its word stays in `cmd` (log entry 5). -/
def Obligations.NopCompletesAtOnce : Prop :=
  ∀ s : State, s.run = false → exec .nop s = .next { s with busy := false, pos := .idle }

/-- R171: MANUAL requests one sample; after its read, in one micro-step, it writes `scale(v)` to `duty` and
the PWM port and adds `v` to `rng`; `res` and everything else stay. -/
def Obligations.ManualWritesTheScaledSample : Prop :=
  ∀ (s : State) (v : Byte), s.run = false →
    (s.pos = .start → exec .manual s = .next { s with smpReq := true, pos := .await .manual }) ∧
    (s.pos = .apply .manual v →
      exec .manual s =
        .next { s with
          duty := scale s.build.pwmMin v, pwmWe := true, pwmReg := scale s.build.pwmMin v,
          trace := .dutyWrite (scale s.build.pwmMin v) :: s.trace,
          rng := BitVec.ofNat 16 (s.rng.toNat + v.toNat), busy := false, pos := .idle })

/-- R172: AUTO's first micro-step writes `rng` and `res` and emits nothing. -/
def Obligations.AutoGeneratesItsTarget : Prop :=
  ∀ (e : Byte) (s : State), s.pos = .start →
    exec (.auto e) s =
      .next { s with
        rng := lcg s.rng e, res := scale s.build.pwmMin (highByte (lcg s.rng e)),
        pos := .legStart (scale s.build.pwmMin (highByte (lcg s.rng e))) }

/-- R172: AUTO, from its first micro-step, with a sampler that answers, steps the generator and runs one
whole leg to the target: it ends idle with `duty = res = target`. The bound counts the model's steps (log
entries 3 and 4), over input levels given in advance (log entry 2). -/
def Obligations.AutoRunsOneWholeUnit : Prop :=
  ∀ (s : State) (e : Byte),
    s.busy = true → s.run = false → s.pos = .start → decode s.cmd = .legal (.auto e) →
    Answering (1 + legStepsBound s.build) s →
    ∃ (n : Nat) (u : State) (samples : List Byte),
      Host.Core.run Sys2Proof.core n s = .next u ∧ n ≤ 1 + legStepsBound s.build ∧
      samples.length = 255 ∧ u.rng = lcg s.rng e ∧ u.res = scale s.build.pwmMin (highByte u.rng) ∧
      u.trace = (legEvents s.build s.duty u.res samples).reverse ++ s.trace ∧
      u.duty = u.res ∧ u.acc = BitVec.ofInt 16 (-255) ∧ u.stepsLeft = 0 ∧
      u.busy = false ∧ u.pos = .idle ∧ u.mode = s.mode ∧ u.err = s.err ∧ u.errCmd = s.errCmd

/-- R173, R174, R175: RUN's own micro-steps: `run <- 1` at acceptance, the seed, the poll, and the choice of
the next unit: AUTO's generator step with `e = 0`, or MANUAL's request. -/
def Obligations.RunDispatchesUnits : Prop :=
  ∀ (s : State) (v : Byte),
    (s.pos = .accept → exec .run s = .next { s with run := true, pos := .start }) ∧
    (s.pos = .start → exec .run s = .next { s with smpReq := true, pos := .await .seed }) ∧
    (s.pos = .apply .seed v → s.run = true →
      exec .run s = .next { s with rng := BitVec.ofNat 16 (s.rng.toNat + v.toNat * 256), pos := .poll }) ∧
    (s.pos = .poll →
      exec .run s = .next { s with
        mode := (pinsOf s).modeSw == s.build.modeAutoLevel,
        trace := .modePoll (pinsOf s).modeSw :: s.trace, pos := .unit }) ∧
    (s.pos = .unit → s.mode = true →
      exec .run s = .next { s with
        rng := lcg s.rng 0, res := scale s.build.pwmMin (highByte (lcg s.rng 0)),
        pos := .legStart (scale s.build.pwmMin (highByte (lcg s.rng 0))) }) ∧
    (s.pos = .unit → s.mode = false →
      exec .run s = .next { s with smpReq := true, pos := .await .manual }) ∧
    (s.pos = .apply .manual v → s.run = true →
      exec .run s = .next { s with
        duty := scale s.build.pwmMin v, pwmWe := true, pwmReg := scale s.build.pwmMin v,
        trace := .dutyWrite (scale s.build.pwmMin v) :: s.trace,
        rng := BitVec.ofNat 16 (s.rng.toNat + v.toNat), pos := .poll })

/-- R171, R173: one manual unit inside RUN, from poll to poll, with a sampler that answers at once: its
events are `ModePoll`, `SampleRead(v)`, `DutyWrite(scale(v))`, in that order. -/
def Obligations.RunManualUnit : Prop :=
  ∀ (s : State) (p q r o : Pins) (rest : List Pins),
    s.busy = true → s.run = true → s.pos = .poll → decode s.cmd = .legal .run →
    s.script = p :: q :: r :: o :: rest → NoReset 4 s → p.modeSw ≠ s.build.modeAutoLevel →
    r.smpAck = true →
    ∃ u : State, Host.Core.run Sys2Proof.core 4 s = .next u ∧
      u.trace = .dutyWrite (scale s.build.pwmMin r.smpData) :: .sampleRead r.smpData ::
        .modePoll p.modeSw :: s.trace ∧
      u.duty = scale s.build.pwmMin r.smpData ∧ u.rng = BitVec.ofNat 16 (s.rng.toNat + r.smpData.toNat) ∧
      u.mode = false ∧ u.res = s.res ∧ u.pos = .poll ∧ u.run = true ∧ u.busy = true

/-- R172, R173, R174, R175: one auto unit inside RUN, from poll to poll, with a sampler that answers: one
`ModePoll`, then one whole leg to the target of `lcg(rng, 0)`, whatever `mode_sw` does meanwhile. The bound
counts the model's steps (log entries 3 and 4), over input levels given in advance (log entry 2). -/
def Obligations.RunAutoUnit : Prop :=
  ∀ (s : State) (p : Pins) (rest : List Pins),
    s.busy = true → s.run = true → s.pos = .poll → decode s.cmd = .legal .run →
    s.script = p :: rest → Answering (2 + legStepsBound s.build) s → p.modeSw = s.build.modeAutoLevel →
    ∃ (n : Nat) (u : State) (samples : List Byte),
      Host.Core.run Sys2Proof.core n s = .next u ∧ n ≤ 2 + legStepsBound s.build ∧
      samples.length = 255 ∧ u.rng = lcg s.rng 0 ∧ u.res = scale s.build.pwmMin (highByte u.rng) ∧
      u.trace =
        (legEvents s.build s.duty u.res samples).reverse ++ .modePoll p.modeSw :: s.trace ∧
      u.duty = u.res ∧ u.mode = true ∧ u.pos = .poll ∧ u.run = true ∧ u.busy = true

/-! ## Frames -/

/-- R104, R115, R138, R170: what NOP, SCALE, NEXT and SETDUTY leave unchanged, in every state: all but
`res` (SCALE, NEXT), `rng` (NEXT), the PWM port and its event (SETDUTY) and the sequencer. The CORE has no
memory (R50). -/
def Obligations.SingleStepCommandsFrame : Prop :=
  ∀ (i : Instr) (s t : State), exec i s = .next t →
    (i = .nop ∨ (∃ x, i = .scale x) ∨ (∃ e, i = .next e) ∨ ∃ v, i = .setduty v) →
    t = { s with
      rng := t.rng, res := t.res, duty := t.duty, pwmWe := t.pwmWe, pwmReg := t.pwmReg,
      trace := t.trace, busy := t.busy, pos := t.pos } ∧
    ((∀ e, i ≠ .next e) → t.rng = s.rng) ∧
    ((∀ x, i ≠ .scale x) → (∀ e, i ≠ .next e) → t.res = s.res) ∧
    ((∀ v, i ≠ .setduty v) →
      t.duty = s.duty ∧ t.pwmWe = s.pwmWe ∧ t.pwmReg = s.pwmReg ∧ t.trace = s.trace)

/-- R114, R116, R155, R171: what SEED, PERTURB, DELAY and MANUAL leave unchanged, in every state: all but
`rng` (not DELAY), the countdown (DELAY), the PWM port (MANUAL), the sampler port, the events and the
sequencer. The CORE has no memory (R50). -/
def Obligations.SamplingCommandsFrame : Prop :=
  ∀ (i : Instr) (s t : State), exec i s = .next t →
    (i = .seed ∨ i = .perturb ∨ i = .delay ∨ i = .manual) →
    t = { s with
      rng := t.rng, dlyUnits := t.dlyUnits, dlyCnt := t.dlyCnt, duty := t.duty, pwmWe := t.pwmWe,
      pwmReg := t.pwmReg, smpReq := t.smpReq, trace := t.trace, busy := t.busy, pos := t.pos } ∧
    (i = .delay → t.rng = s.rng) ∧
    (i ≠ .delay → t.dlyUnits = s.dlyUnits ∧ t.dlyCnt = s.dlyCnt) ∧
    (i ≠ .manual → t.duty = s.duty ∧ t.pwmWe = s.pwmWe ∧ t.pwmReg = s.pwmReg)

/-- R139, R172, R173: what RAMP, AUTO and RUN leave unchanged, in every state: `err`, `err_cmd` and `cmd`
always; `mode` and `run` for RAMP and AUTO; `rng` and `res` for RAMP. The CORE has no memory (R50). -/
def Obligations.LegCommandsFrame : Prop :=
  ∀ (i : Instr) (s t : State), exec i s = .next t →
    ((∃ t', i = .ramp t') ∨ (∃ e, i = .auto e) ∨ i = .run) →
    t.err = s.err ∧ t.errCmd = s.errCmd ∧ t.cmd = s.cmd ∧ t.build = s.build ∧ t.script = s.script ∧
    t.time = s.time ∧
    (i ≠ .run → t.mode = s.mode ∧ t.run = s.run) ∧
    ((∃ t', i = .ramp t') → t.rng = s.rng ∧ t.res = s.res)
end

