-- ==== Sys2Proof/Laws/State.lean ====
section
/-!
SUPPORT. Sys2Proof/Laws/State.lean: for each record update of Sys2Proof/Machine/Ops.lean, what it does to each
field, one equation a field, all by rfl; and the levels of the input ports, which no operation but `advance`
and `offer` touches.
-/

namespace Sys2Proof.Machine

@[simp] theorem goTo_fields (p : Pos) (s : State) :
    (goTo p s).duty = s.duty ∧
    (goTo p s).rng = s.rng ∧
    (goTo p s).res = s.res ∧
    (goTo p s).tgt = s.tgt ∧
    (goTo p s).acc = s.acc ∧
    (goTo p s).dir = s.dir ∧
    (goTo p s).mag = s.mag ∧
    (goTo p s).stepsLeft = s.stepsLeft ∧
    (goTo p s).dlyUnits = s.dlyUnits ∧
    (goTo p s).dlyCnt = s.dlyCnt ∧
    (goTo p s).mode = s.mode ∧
    (goTo p s).run = s.run ∧
    (goTo p s).busy = s.busy ∧
    (goTo p s).err = s.err ∧
    (goTo p s).errCmd = s.errCmd ∧
    (goTo p s).cmd = s.cmd ∧
    (goTo p s).pos = p ∧
    (goTo p s).smpReq = s.smpReq ∧
    (goTo p s).pwmWe = s.pwmWe ∧
    (goTo p s).pwmReg = s.pwmReg ∧
    (goTo p s).build = s.build ∧
    (goTo p s).trace = s.trace ∧
    (goTo p s).script = s.script ∧
    (goTo p s).time = s.time := by
  refine ⟨?_, ?_, ?_, ?_, ?_, ?_, ?_, ?_, ?_, ?_, ?_, ?_, ?_, ?_, ?_, ?_, ?_, ?_, ?_, ?_, ?_, ?_, ?_, ?_⟩ <;> rfl

@[simp] theorem emit_fields (e : Event) (s : State) :
    (emit e s).duty = s.duty ∧
    (emit e s).rng = s.rng ∧
    (emit e s).res = s.res ∧
    (emit e s).tgt = s.tgt ∧
    (emit e s).acc = s.acc ∧
    (emit e s).dir = s.dir ∧
    (emit e s).mag = s.mag ∧
    (emit e s).stepsLeft = s.stepsLeft ∧
    (emit e s).dlyUnits = s.dlyUnits ∧
    (emit e s).dlyCnt = s.dlyCnt ∧
    (emit e s).mode = s.mode ∧
    (emit e s).run = s.run ∧
    (emit e s).busy = s.busy ∧
    (emit e s).err = s.err ∧
    (emit e s).errCmd = s.errCmd ∧
    (emit e s).cmd = s.cmd ∧
    (emit e s).pos = s.pos ∧
    (emit e s).smpReq = s.smpReq ∧
    (emit e s).pwmWe = s.pwmWe ∧
    (emit e s).pwmReg = s.pwmReg ∧
    (emit e s).build = s.build ∧
    (emit e s).trace = e :: s.trace ∧
    (emit e s).script = s.script ∧
    (emit e s).time = s.time := by
  refine ⟨?_, ?_, ?_, ?_, ?_, ?_, ?_, ?_, ?_, ?_, ?_, ?_, ?_, ?_, ?_, ?_, ?_, ?_, ?_, ?_, ?_, ?_, ?_, ?_⟩ <;> rfl

@[simp] theorem writeRng_fields (v : Word) (s : State) :
    (writeRng v s).duty = s.duty ∧
    (writeRng v s).rng = v ∧
    (writeRng v s).res = s.res ∧
    (writeRng v s).tgt = s.tgt ∧
    (writeRng v s).acc = s.acc ∧
    (writeRng v s).dir = s.dir ∧
    (writeRng v s).mag = s.mag ∧
    (writeRng v s).stepsLeft = s.stepsLeft ∧
    (writeRng v s).dlyUnits = s.dlyUnits ∧
    (writeRng v s).dlyCnt = s.dlyCnt ∧
    (writeRng v s).mode = s.mode ∧
    (writeRng v s).run = s.run ∧
    (writeRng v s).busy = s.busy ∧
    (writeRng v s).err = s.err ∧
    (writeRng v s).errCmd = s.errCmd ∧
    (writeRng v s).cmd = s.cmd ∧
    (writeRng v s).pos = s.pos ∧
    (writeRng v s).smpReq = s.smpReq ∧
    (writeRng v s).pwmWe = s.pwmWe ∧
    (writeRng v s).pwmReg = s.pwmReg ∧
    (writeRng v s).build = s.build ∧
    (writeRng v s).trace = s.trace ∧
    (writeRng v s).script = s.script ∧
    (writeRng v s).time = s.time := by
  refine ⟨?_, ?_, ?_, ?_, ?_, ?_, ?_, ?_, ?_, ?_, ?_, ?_, ?_, ?_, ?_, ?_, ?_, ?_, ?_, ?_, ?_, ?_, ?_, ?_⟩ <;> rfl

@[simp] theorem writeRes_fields (v : Byte) (s : State) :
    (writeRes v s).duty = s.duty ∧
    (writeRes v s).rng = s.rng ∧
    (writeRes v s).res = v ∧
    (writeRes v s).tgt = s.tgt ∧
    (writeRes v s).acc = s.acc ∧
    (writeRes v s).dir = s.dir ∧
    (writeRes v s).mag = s.mag ∧
    (writeRes v s).stepsLeft = s.stepsLeft ∧
    (writeRes v s).dlyUnits = s.dlyUnits ∧
    (writeRes v s).dlyCnt = s.dlyCnt ∧
    (writeRes v s).mode = s.mode ∧
    (writeRes v s).run = s.run ∧
    (writeRes v s).busy = s.busy ∧
    (writeRes v s).err = s.err ∧
    (writeRes v s).errCmd = s.errCmd ∧
    (writeRes v s).cmd = s.cmd ∧
    (writeRes v s).pos = s.pos ∧
    (writeRes v s).smpReq = s.smpReq ∧
    (writeRes v s).pwmWe = s.pwmWe ∧
    (writeRes v s).pwmReg = s.pwmReg ∧
    (writeRes v s).build = s.build ∧
    (writeRes v s).trace = s.trace ∧
    (writeRes v s).script = s.script ∧
    (writeRes v s).time = s.time := by
  refine ⟨?_, ?_, ?_, ?_, ?_, ?_, ?_, ?_, ?_, ?_, ?_, ?_, ?_, ?_, ?_, ?_, ?_, ?_, ?_, ?_, ?_, ?_, ?_, ?_⟩ <;> rfl

@[simp] theorem complete_fields (s : State) :
    (complete s).duty = s.duty ∧
    (complete s).rng = s.rng ∧
    (complete s).res = s.res ∧
    (complete s).tgt = s.tgt ∧
    (complete s).acc = s.acc ∧
    (complete s).dir = s.dir ∧
    (complete s).mag = s.mag ∧
    (complete s).stepsLeft = s.stepsLeft ∧
    (complete s).dlyUnits = s.dlyUnits ∧
    (complete s).dlyCnt = s.dlyCnt ∧
    (complete s).mode = s.mode ∧
    (complete s).run = s.run ∧
    (complete s).busy = (s.busy && s.run) ∧
    (complete s).err = s.err ∧
    (complete s).errCmd = s.errCmd ∧
    (complete s).cmd = s.cmd ∧
    (complete s).pos = (if s.run then .poll else .idle) ∧
    (complete s).smpReq = s.smpReq ∧
    (complete s).pwmWe = s.pwmWe ∧
    (complete s).pwmReg = s.pwmReg ∧
    (complete s).build = s.build ∧
    (complete s).trace = s.trace ∧
    (complete s).script = s.script ∧
    (complete s).time = s.time := by
  refine ⟨?_, ?_, ?_, ?_, ?_, ?_, ?_, ?_, ?_, ?_, ?_, ?_, ?_, ?_, ?_, ?_, ?_, ?_, ?_, ?_, ?_, ?_, ?_, ?_⟩ <;> rfl

@[simp] theorem setDuty_fields (v : Byte) (s : State) :
    (setDuty v s).duty = v ∧
    (setDuty v s).rng = s.rng ∧
    (setDuty v s).res = s.res ∧
    (setDuty v s).tgt = s.tgt ∧
    (setDuty v s).acc = s.acc ∧
    (setDuty v s).dir = s.dir ∧
    (setDuty v s).mag = s.mag ∧
    (setDuty v s).stepsLeft = s.stepsLeft ∧
    (setDuty v s).dlyUnits = s.dlyUnits ∧
    (setDuty v s).dlyCnt = s.dlyCnt ∧
    (setDuty v s).mode = s.mode ∧
    (setDuty v s).run = s.run ∧
    (setDuty v s).busy = s.busy ∧
    (setDuty v s).err = s.err ∧
    (setDuty v s).errCmd = s.errCmd ∧
    (setDuty v s).cmd = s.cmd ∧
    (setDuty v s).pos = s.pos ∧
    (setDuty v s).smpReq = s.smpReq ∧
    (setDuty v s).pwmWe = true ∧
    (setDuty v s).pwmReg = v ∧
    (setDuty v s).build = s.build ∧
    (setDuty v s).trace = .dutyWrite v :: s.trace ∧
    (setDuty v s).script = s.script ∧
    (setDuty v s).time = s.time := by
  refine ⟨?_, ?_, ?_, ?_, ?_, ?_, ?_, ?_, ?_, ?_, ?_, ?_, ?_, ?_, ?_, ?_, ?_, ?_, ?_, ?_, ?_, ?_, ?_, ?_⟩ <;> rfl

@[simp] theorem request_fields (u : SampleUse) (s : State) :
    (request u s).duty = s.duty ∧
    (request u s).rng = s.rng ∧
    (request u s).res = s.res ∧
    (request u s).tgt = s.tgt ∧
    (request u s).acc = s.acc ∧
    (request u s).dir = s.dir ∧
    (request u s).mag = s.mag ∧
    (request u s).stepsLeft = s.stepsLeft ∧
    (request u s).dlyUnits = s.dlyUnits ∧
    (request u s).dlyCnt = s.dlyCnt ∧
    (request u s).mode = s.mode ∧
    (request u s).run = s.run ∧
    (request u s).busy = s.busy ∧
    (request u s).err = s.err ∧
    (request u s).errCmd = s.errCmd ∧
    (request u s).cmd = s.cmd ∧
    (request u s).pos = .await u ∧
    (request u s).smpReq = true ∧
    (request u s).pwmWe = s.pwmWe ∧
    (request u s).pwmReg = s.pwmReg ∧
    (request u s).build = s.build ∧
    (request u s).trace = s.trace ∧
    (request u s).script = s.script ∧
    (request u s).time = s.time := by
  refine ⟨?_, ?_, ?_, ?_, ?_, ?_, ?_, ?_, ?_, ?_, ?_, ?_, ?_, ?_, ?_, ?_, ?_, ?_, ?_, ?_, ?_, ?_, ?_, ?_⟩ <;> rfl

@[simp] theorem latch_fields (u : SampleUse) (v : Byte) (s : State) :
    (latch u v s).duty = s.duty ∧
    (latch u v s).rng = s.rng ∧
    (latch u v s).res = s.res ∧
    (latch u v s).tgt = s.tgt ∧
    (latch u v s).acc = s.acc ∧
    (latch u v s).dir = s.dir ∧
    (latch u v s).mag = s.mag ∧
    (latch u v s).stepsLeft = s.stepsLeft ∧
    (latch u v s).dlyUnits = s.dlyUnits ∧
    (latch u v s).dlyCnt = s.dlyCnt ∧
    (latch u v s).mode = s.mode ∧
    (latch u v s).run = s.run ∧
    (latch u v s).busy = s.busy ∧
    (latch u v s).err = s.err ∧
    (latch u v s).errCmd = s.errCmd ∧
    (latch u v s).cmd = s.cmd ∧
    (latch u v s).pos = .apply u v ∧
    (latch u v s).smpReq = false ∧
    (latch u v s).pwmWe = s.pwmWe ∧
    (latch u v s).pwmReg = s.pwmReg ∧
    (latch u v s).build = s.build ∧
    (latch u v s).trace = .sampleRead v :: s.trace ∧
    (latch u v s).script = s.script ∧
    (latch u v s).time = s.time := by
  refine ⟨?_, ?_, ?_, ?_, ?_, ?_, ?_, ?_, ?_, ?_, ?_, ?_, ?_, ?_, ?_, ?_, ?_, ?_, ?_, ?_, ?_, ?_, ?_, ?_⟩ <;> rfl

@[simp] theorem pollMode_fields (s : State) :
    (pollMode s).duty = s.duty ∧
    (pollMode s).rng = s.rng ∧
    (pollMode s).res = s.res ∧
    (pollMode s).tgt = s.tgt ∧
    (pollMode s).acc = s.acc ∧
    (pollMode s).dir = s.dir ∧
    (pollMode s).mag = s.mag ∧
    (pollMode s).stepsLeft = s.stepsLeft ∧
    (pollMode s).dlyUnits = s.dlyUnits ∧
    (pollMode s).dlyCnt = s.dlyCnt ∧
    (pollMode s).mode = ((pinsOf s).modeSw == s.build.modeAutoLevel) ∧
    (pollMode s).run = s.run ∧
    (pollMode s).busy = s.busy ∧
    (pollMode s).err = s.err ∧
    (pollMode s).errCmd = s.errCmd ∧
    (pollMode s).cmd = s.cmd ∧
    (pollMode s).pos = .unit ∧
    (pollMode s).smpReq = s.smpReq ∧
    (pollMode s).pwmWe = s.pwmWe ∧
    (pollMode s).pwmReg = s.pwmReg ∧
    (pollMode s).build = s.build ∧
    (pollMode s).trace = .modePoll (pinsOf s).modeSw :: s.trace ∧
    (pollMode s).script = s.script ∧
    (pollMode s).time = s.time := by
  refine ⟨?_, ?_, ?_, ?_, ?_, ?_, ?_, ?_, ?_, ?_, ?_, ?_, ?_, ?_, ?_, ?_, ?_, ?_, ?_, ?_, ?_, ?_, ?_, ?_⟩ <;> rfl

@[simp] theorem latchCommand_fields (w : Word) (s : State) :
    (latchCommand w s).duty = s.duty ∧
    (latchCommand w s).rng = s.rng ∧
    (latchCommand w s).res = s.res ∧
    (latchCommand w s).tgt = s.tgt ∧
    (latchCommand w s).acc = s.acc ∧
    (latchCommand w s).dir = s.dir ∧
    (latchCommand w s).mag = s.mag ∧
    (latchCommand w s).stepsLeft = s.stepsLeft ∧
    (latchCommand w s).dlyUnits = s.dlyUnits ∧
    (latchCommand w s).dlyCnt = s.dlyCnt ∧
    (latchCommand w s).mode = s.mode ∧
    (latchCommand w s).run = s.run ∧
    (latchCommand w s).busy = s.busy ∧
    (latchCommand w s).err = s.err ∧
    (latchCommand w s).errCmd = s.errCmd ∧
    (latchCommand w s).cmd = w ∧
    (latchCommand w s).pos = s.pos ∧
    (latchCommand w s).smpReq = s.smpReq ∧
    (latchCommand w s).pwmWe = s.pwmWe ∧
    (latchCommand w s).pwmReg = s.pwmReg ∧
    (latchCommand w s).build = s.build ∧
    (latchCommand w s).trace = .cmdAccept w :: s.trace ∧
    (latchCommand w s).script = s.script ∧
    (latchCommand w s).time = s.time := by
  refine ⟨?_, ?_, ?_, ?_, ?_, ?_, ?_, ?_, ?_, ?_, ?_, ?_, ?_, ?_, ?_, ?_, ?_, ?_, ?_, ?_, ?_, ?_, ?_, ?_⟩ <;> rfl

@[simp] theorem acceptCommand_fields (w : Word) (s : State) :
    (acceptCommand w s).duty = s.duty ∧
    (acceptCommand w s).rng = s.rng ∧
    (acceptCommand w s).res = s.res ∧
    (acceptCommand w s).tgt = s.tgt ∧
    (acceptCommand w s).acc = s.acc ∧
    (acceptCommand w s).dir = s.dir ∧
    (acceptCommand w s).mag = s.mag ∧
    (acceptCommand w s).stepsLeft = s.stepsLeft ∧
    (acceptCommand w s).dlyUnits = s.dlyUnits ∧
    (acceptCommand w s).dlyCnt = s.dlyCnt ∧
    (acceptCommand w s).mode = s.mode ∧
    (acceptCommand w s).run = s.run ∧
    (acceptCommand w s).busy = true ∧
    (acceptCommand w s).err = s.err ∧
    (acceptCommand w s).errCmd = s.errCmd ∧
    (acceptCommand w s).cmd = w ∧
    (acceptCommand w s).pos = .accept ∧
    (acceptCommand w s).smpReq = s.smpReq ∧
    (acceptCommand w s).pwmWe = s.pwmWe ∧
    (acceptCommand w s).pwmReg = s.pwmReg ∧
    (acceptCommand w s).build = s.build ∧
    (acceptCommand w s).trace = .cmdAccept w :: s.trace ∧
    (acceptCommand w s).script = s.script ∧
    (acceptCommand w s).time = s.time := by
  refine ⟨?_, ?_, ?_, ?_, ?_, ?_, ?_, ?_, ?_, ?_, ?_, ?_, ?_, ?_, ?_, ?_, ?_, ?_, ?_, ?_, ?_, ?_, ?_, ?_⟩ <;> rfl

@[simp] theorem raiseIllegal_fields (w : Word) (s : State) :
    (raiseIllegal w s).duty = s.duty ∧
    (raiseIllegal w s).rng = s.rng ∧
    (raiseIllegal w s).res = s.res ∧
    (raiseIllegal w s).tgt = s.tgt ∧
    (raiseIllegal w s).acc = s.acc ∧
    (raiseIllegal w s).dir = s.dir ∧
    (raiseIllegal w s).mag = s.mag ∧
    (raiseIllegal w s).stepsLeft = s.stepsLeft ∧
    (raiseIllegal w s).dlyUnits = s.dlyUnits ∧
    (raiseIllegal w s).dlyCnt = s.dlyCnt ∧
    (raiseIllegal w s).mode = s.mode ∧
    (raiseIllegal w s).run = s.run ∧
    (raiseIllegal w s).busy = s.busy ∧
    (raiseIllegal w s).err = true ∧
    (raiseIllegal w s).errCmd = (if s.err then s.errCmd else w) ∧
    (raiseIllegal w s).cmd = s.cmd ∧
    (raiseIllegal w s).pos = s.pos ∧
    (raiseIllegal w s).smpReq = s.smpReq ∧
    (raiseIllegal w s).pwmWe = s.pwmWe ∧
    (raiseIllegal w s).pwmReg = s.pwmReg ∧
    (raiseIllegal w s).build = s.build ∧
    (raiseIllegal w s).trace = s.trace ∧
    (raiseIllegal w s).script = s.script ∧
    (raiseIllegal w s).time = s.time := by
  refine ⟨?_, ?_, ?_, ?_, ?_, ?_, ?_, ?_, ?_, ?_, ?_, ?_, ?_, ?_, ?_, ?_, ?_, ?_, ?_, ?_, ?_, ?_, ?_, ?_⟩ <;> rfl

@[simp] theorem enter_fields (s : State) :
    (enter s).duty = s.duty ∧
    (enter s).rng = s.rng ∧
    (enter s).res = s.res ∧
    (enter s).tgt = s.tgt ∧
    (enter s).acc = s.acc ∧
    (enter s).dir = s.dir ∧
    (enter s).mag = s.mag ∧
    (enter s).stepsLeft = s.stepsLeft ∧
    (enter s).dlyUnits = s.dlyUnits ∧
    (enter s).dlyCnt = s.dlyCnt ∧
    (enter s).mode = s.mode ∧
    (enter s).run = s.run ∧
    (enter s).busy = s.busy ∧
    (enter s).err = s.err ∧
    (enter s).errCmd = s.errCmd ∧
    (enter s).cmd = s.cmd ∧
    (enter s).pos = .start ∧
    (enter s).smpReq = s.smpReq ∧
    (enter s).pwmWe = s.pwmWe ∧
    (enter s).pwmReg = s.pwmReg ∧
    (enter s).build = s.build ∧
    (enter s).trace = s.trace ∧
    (enter s).script = s.script ∧
    (enter s).time = s.time := by
  refine ⟨?_, ?_, ?_, ?_, ?_, ?_, ?_, ?_, ?_, ?_, ?_, ?_, ?_, ?_, ?_, ?_, ?_, ?_, ?_, ?_, ?_, ?_, ?_, ?_⟩ <;> rfl

@[simp] theorem legSetup_fields (t : Byte) (s : State) :
    (legSetup t s).duty = s.duty ∧
    (legSetup t s).rng = s.rng ∧
    (legSetup t s).res = s.res ∧
    (legSetup t s).tgt = t ∧
    (legSetup t s).acc = BitVec.ofInt 16 (-255) ∧
    (legSetup t s).dir = legDir s.duty t ∧
    (legSetup t s).mag = legMag s.duty t ∧
    (legSetup t s).stepsLeft = 255 ∧
    (legSetup t s).dlyUnits = s.dlyUnits ∧
    (legSetup t s).dlyCnt = s.dlyCnt ∧
    (legSetup t s).mode = s.mode ∧
    (legSetup t s).run = s.run ∧
    (legSetup t s).busy = s.busy ∧
    (legSetup t s).err = s.err ∧
    (legSetup t s).errCmd = s.errCmd ∧
    (legSetup t s).cmd = s.cmd ∧
    (legSetup t s).pos = .decide ∧
    (legSetup t s).smpReq = s.smpReq ∧
    (legSetup t s).pwmWe = s.pwmWe ∧
    (legSetup t s).pwmReg = s.pwmReg ∧
    (legSetup t s).build = s.build ∧
    (legSetup t s).trace = s.trace ∧
    (legSetup t s).script = s.script ∧
    (legSetup t s).time = s.time := by
  refine ⟨?_, ?_, ?_, ?_, ?_, ?_, ?_, ?_, ?_, ?_, ?_, ?_, ?_, ?_, ?_, ?_, ?_, ?_, ?_, ?_, ?_, ?_, ?_, ?_⟩ <;> rfl

@[simp] theorem armWait_fields (w : WaitOf) (v : Byte) (s : State) :
    (armWait w v s).duty = s.duty ∧
    (armWait w v s).rng = s.rng ∧
    (armWait w v s).res = s.res ∧
    (armWait w v s).tgt = s.tgt ∧
    (armWait w v s).acc = s.acc ∧
    (armWait w v s).dir = s.dir ∧
    (armWait w v s).mag = s.mag ∧
    (armWait w v s).stepsLeft = s.stepsLeft ∧
    (armWait w v s).dlyUnits = delayUnits s.build.delayOffset v ∧
    (armWait w v s).dlyCnt = s.build.delayBudget.setWidth 16 ∧
    (armWait w v s).mode = s.mode ∧
    (armWait w v s).run = s.run ∧
    (armWait w v s).busy = s.busy ∧
    (armWait w v s).err = s.err ∧
    (armWait w v s).errCmd = s.errCmd ∧
    (armWait w v s).cmd = s.cmd ∧
    (armWait w v s).pos = .tick w ∧
    (armWait w v s).smpReq = s.smpReq ∧
    (armWait w v s).pwmWe = s.pwmWe ∧
    (armWait w v s).pwmReg = s.pwmReg ∧
    (armWait w v s).build = s.build ∧
    (armWait w v s).trace = s.trace ∧
    (armWait w v s).script = s.script ∧
    (armWait w v s).time = s.time := by
  refine ⟨?_, ?_, ?_, ?_, ?_, ?_, ?_, ?_, ?_, ?_, ?_, ?_, ?_, ?_, ?_, ?_, ?_, ?_, ?_, ?_, ?_, ?_, ?_, ?_⟩ <;> rfl

@[simp] theorem quiet_fields (s : State) :
    (quiet s).duty = s.duty ∧
    (quiet s).rng = s.rng ∧
    (quiet s).res = s.res ∧
    (quiet s).tgt = s.tgt ∧
    (quiet s).acc = s.acc ∧
    (quiet s).dir = s.dir ∧
    (quiet s).mag = s.mag ∧
    (quiet s).stepsLeft = s.stepsLeft ∧
    (quiet s).dlyUnits = s.dlyUnits ∧
    (quiet s).dlyCnt = s.dlyCnt ∧
    (quiet s).mode = s.mode ∧
    (quiet s).run = s.run ∧
    (quiet s).busy = s.busy ∧
    (quiet s).err = s.err ∧
    (quiet s).errCmd = s.errCmd ∧
    (quiet s).cmd = s.cmd ∧
    (quiet s).pos = s.pos ∧
    (quiet s).smpReq = s.smpReq ∧
    (quiet s).pwmWe = false ∧
    (quiet s).pwmReg = s.pwmReg ∧
    (quiet s).build = s.build ∧
    (quiet s).trace = s.trace ∧
    (quiet s).script = s.script ∧
    (quiet s).time = s.time := by
  refine ⟨?_, ?_, ?_, ?_, ?_, ?_, ?_, ?_, ?_, ?_, ?_, ?_, ?_, ?_, ?_, ?_, ?_, ?_, ?_, ?_, ?_, ?_, ?_, ?_⟩ <;> rfl

@[simp] theorem advance_fields (s : State) :
    (advance s).duty = s.duty ∧
    (advance s).rng = s.rng ∧
    (advance s).res = s.res ∧
    (advance s).tgt = s.tgt ∧
    (advance s).acc = s.acc ∧
    (advance s).dir = s.dir ∧
    (advance s).mag = s.mag ∧
    (advance s).stepsLeft = s.stepsLeft ∧
    (advance s).dlyUnits = s.dlyUnits ∧
    (advance s).dlyCnt = s.dlyCnt ∧
    (advance s).mode = s.mode ∧
    (advance s).run = s.run ∧
    (advance s).busy = s.busy ∧
    (advance s).err = s.err ∧
    (advance s).errCmd = s.errCmd ∧
    (advance s).cmd = s.cmd ∧
    (advance s).pos = s.pos ∧
    (advance s).smpReq = s.smpReq ∧
    (advance s).pwmWe = s.pwmWe ∧
    (advance s).pwmReg = s.pwmReg ∧
    (advance s).build = s.build ∧
    (advance s).trace = s.trace ∧
    (advance s).script = s.script.tail ∧
    (advance s).time = s.time + 1 := by
  refine ⟨?_, ?_, ?_, ?_, ?_, ?_, ?_, ?_, ?_, ?_, ?_, ?_, ?_, ?_, ?_, ?_, ?_, ?_, ?_, ?_, ?_, ?_, ?_, ?_⟩ <;> rfl

@[simp] theorem offer_fields (w : Word) (s : State) :
    (offer w s).duty = s.duty ∧
    (offer w s).rng = s.rng ∧
    (offer w s).res = s.res ∧
    (offer w s).tgt = s.tgt ∧
    (offer w s).acc = s.acc ∧
    (offer w s).dir = s.dir ∧
    (offer w s).mag = s.mag ∧
    (offer w s).stepsLeft = s.stepsLeft ∧
    (offer w s).dlyUnits = s.dlyUnits ∧
    (offer w s).dlyCnt = s.dlyCnt ∧
    (offer w s).mode = s.mode ∧
    (offer w s).run = false ∧
    (offer w s).busy = false ∧
    (offer w s).err = s.err ∧
    (offer w s).errCmd = s.errCmd ∧
    (offer w s).cmd = s.cmd ∧
    (offer w s).pos = .idle ∧
    (offer w s).smpReq = false ∧
    (offer w s).pwmWe = s.pwmWe ∧
    (offer w s).pwmReg = s.pwmReg ∧
    (offer w s).build = s.build ∧
    (offer w s).trace = s.trace ∧
    (offer w s).script = offering w (pinsOf s) :: s.script.tail ∧
    (offer w s).time = s.time := by
  refine ⟨?_, ?_, ?_, ?_, ?_, ?_, ?_, ?_, ?_, ?_, ?_, ?_, ?_, ?_, ?_, ?_, ?_, ?_, ?_, ?_, ?_, ?_, ?_, ?_⟩ <;> rfl

@[simp] theorem resetRegisters_fields (s : State) :
    (resetRegisters s).duty = s.build.initDuty ∧
    (resetRegisters s).rng = s.build.rngInit ∧
    (resetRegisters s).res = 0 ∧
    (resetRegisters s).tgt = 0 ∧
    (resetRegisters s).acc = 0 ∧
    (resetRegisters s).dir = false ∧
    (resetRegisters s).mag = 0 ∧
    (resetRegisters s).stepsLeft = 0 ∧
    (resetRegisters s).dlyUnits = 0 ∧
    (resetRegisters s).dlyCnt = 0 ∧
    (resetRegisters s).mode = false ∧
    (resetRegisters s).run = false ∧
    (resetRegisters s).busy = false ∧
    (resetRegisters s).err = false ∧
    (resetRegisters s).errCmd = 0 ∧
    (resetRegisters s).cmd = 0 ∧
    (resetRegisters s).pos = .idle ∧
    (resetRegisters s).smpReq = false ∧
    (resetRegisters s).pwmWe = false ∧
    (resetRegisters s).pwmReg = s.pwmReg ∧
    (resetRegisters s).build = s.build ∧
    (resetRegisters s).trace = s.trace ∧
    (resetRegisters s).script = s.script ∧
    (resetRegisters s).time = s.time := by
  refine ⟨?_, ?_, ?_, ?_, ?_, ?_, ?_, ?_, ?_, ?_, ?_, ?_, ?_, ?_, ?_, ?_, ?_, ?_, ?_, ?_, ?_, ?_, ?_, ?_⟩ <;> rfl

/-- The input levels depend on the script and the time alone. -/
theorem pinsOf_congr {s t : State} (h : s.script = t.script) (h' : s.time = t.time) : pinsOf s = pinsOf t := by
  simp only [pinsOf, h, h']

@[simp] theorem pinsOf_quiet (s : State) : pinsOf (quiet s) = pinsOf s := rfl
@[simp] theorem pinsOf_acceptCommand (w : Word) (s : State) : pinsOf (acceptCommand w s) = pinsOf s := rfl
@[simp] theorem pinsOf_offer (w : Word) (s : State) : pinsOf (offer w s) = offering w (pinsOf s) := rfl
theorem pinsOf_cons {s : State} {p : Pins} {rest : List Pins} (h : s.script = p :: rest) : pinsOf s = p := by
  simp only [pinsOf, h]

end Sys2Proof.Machine
end

