-- ==== Sys2Proof/Laws/Ops.lean ====
section
/-!
SUPPORT. Sys2Proof/Laws/Ops.lean: for each shared operation that has a choice in it, one lemma that says
everything it can do; and the conditions of Sys2Proof/Machine/Flags.lean as comparisons of integers.
-/

namespace Sys2Proof.Machine

/-- R52: the read completes exactly when it is outstanding and answered. -/
theorem awaitSample_cases (u : SampleUse) (s : State) :
    (s.smpReq = true ∧ (pinsOf s).smpAck = true ∧ awaitSample u s = latch u (pinsOf s).smpData s) ∨
    ((s.smpReq = false ∨ (pinsOf s).smpAck = false) ∧ awaitSample u s = { s with smpReq := true }) := by
  unfold awaitSample
  cases hr : s.smpReq <;> cases ha : (pinsOf s).smpAck <;> simp

/-- R132: a decision step moves one unit or not at all. -/
theorem decisionStep_cases (s : State) :
    (legMoves s = true ∧
      decisionStep s = setDuty (moveOne s.dir s.duty) { s with acc := accSum s - 510, pos := .wait }) ∨
    (legMoves s = false ∧ decisionStep s = { s with acc := accSum s, pos := .wait }) := by
  unfold decisionStep
  cases h : legMoves s <;> simp

/-- R131: the count ends the leg or leads to the next decision step. -/
theorem countStep_cases (s : State) :
    (s.stepsLeft = 1 ∧ countStep s = complete { s with stepsLeft := 0 }) ∨
    (s.stepsLeft ≠ 1 ∧ countStep s = { s with stepsLeft := s.stepsLeft - 1, pos := .decide }) := by
  have h : legEnds s = true ↔ s.stepsLeft = 1 := by
    simp only [legEnds, beq_iff_eq]
    constructor <;> intro h <;> bv_omega
  unfold countStep
  by_cases h1 : s.stepsLeft = 1
  · left
    refine ⟨h1, ?_⟩
    rw [if_pos (h.2 h1), h1]
    rfl
  · right
    exact ⟨h1, if_neg fun h2 => h1 (h.1 h2)⟩

/-- R150, R151: a tick goes on, ends DELAY's wait, or ends a leg's wait. -/
theorem tickStep_cases (w : WaitOf) (s : State) :
    (waitEnds s = false ∧ tickStep w s = emit .tick { s with dlyCnt := dlyNext s }) ∨
    (waitEnds s = true ∧ w = .command ∧
      tickStep w s = complete (emit .tick { s with dlyCnt := dlyNext s })) ∨
    (waitEnds s = true ∧ w = .leg ∧
      tickStep w s = goTo .count (emit .tick { s with dlyCnt := dlyNext s })) := by
  unfold tickStep afterWait
  cases h : waitEnds s <;> cases w <;> simp

/-- R132: the sign test, on integers. -/
theorem legMoves_iff (s : State) : legMoves s = true ↔ 0 ≤ (accSum s).toInt := by
  simp [legMoves, BitVec.slt]

/-- R150: the delay end test, on integers. -/
theorem waitEnds_iff (s : State) : waitEnds s = true ↔ (dlyNext s).toInt < 0 := by
  simp [waitEnds, BitVec.slt]

/-- R134: the addition does not overflow within the ranges of R24. -/
theorem accSum_toInt {s : State} (h : -510 ≤ s.acc.toInt) (h' : s.acc.toInt ≤ 509)
    (hm : s.mag.toNat ≤ 510) : (accSum s).toInt = s.acc.toInt + s.mag.toNat := by
  have hw : (s.mag.setWidth 16).toInt = s.mag.toNat := by
    rw [BitVec.toInt_eq_toNat_of_lt] <;> simp only [BitVec.toNat_setWidth] <;> omega
  simp only [accSum, BitVec.toInt_add, hw]
  rw [Int.bmod_eq_of_le] <;> omega

/-- R25, R151: the subtraction does not overflow within the ranges of R25. -/
theorem dlyNext_toInt {s : State} (h : -510 ≤ s.dlyCnt.toInt) (h' : s.dlyCnt.toInt ≤ 32767)
    (hu : s.dlyUnits.toNat ≤ 510) : (dlyNext s).toInt = s.dlyCnt.toInt - s.dlyUnits.toNat := by
  have hw : (s.dlyUnits.setWidth 16).toInt = s.dlyUnits.toNat := by
    rw [BitVec.toInt_eq_toNat_of_lt] <;> simp only [BitVec.toNat_setWidth] <;> omega
  simp only [dlyNext, BitVec.toInt_sub, hw]
  rw [Int.bmod_eq_of_le] <;> omega

/-- R150, R158: the decrement is the sum itself. -/
theorem delayUnits_toNat (o v : Byte) : (delayUnits o v).toNat = v.toNat + o.toNat := by
  have := v.isLt
  have := o.isLt
  simp only [delayUnits, BitVec.toNat_add, BitVec.toNat_setWidth]
  omega

/-- R157: the countdown starts at the budget. -/
theorem budget_toInt (b : BitVec 15) : (b.setWidth 16).toInt = b.toNat := by
  have := b.isLt
  rw [BitVec.toInt_eq_toNat_of_lt] <;> simp only [BitVec.toNat_setWidth] <;> omega

/-- R220: an output that reset holds is 0 while `rst = 1`. -/
theorem heldInReset_of_rst {s : State} (h : (pinsOf s).rst = true) (b : Bool) : heldInReset s b = false := by
  simp [heldInReset, h]

/-- An output that reset holds has its own level while `rst = 0`. -/
theorem heldInReset_of_not_rst {s : State} (h : (pinsOf s).rst = false) (b : Bool) :
    heldInReset s b = b := by
  simp [heldInReset, h]

end Sys2Proof.Machine
end

