-- ==== Sys2Proof/Laws/PerInstr.lean ====
section
/-!
SUPPORT. Sys2Proof/Laws/PerInstr.lean: the family `FieldsLegal`, one lemma a command: its fields pass every
check of R75, and its word is in its own row of R74's opcode map.
-/

namespace Sys2Proof.Laws.FieldsLegal

/-- The command is well-formed, and its word matches the row of its opcode (R71, R74, R75). -/
def Statement (i : Instr) : Prop :=
  wellFormed i = true ∧ ∃ r ∈ opcodeMap, r.op = (opOf i).toNat ∧ rowMatches r (encode i) = true

theorem nop : Statement .nop := by unfold Statement; decide

theorem scale (x : Byte) : Statement (.scale x) := by unfold Statement; revert x; decide

theorem seed : Statement .seed := by unfold Statement; decide

theorem next (e : Byte) : Statement (.next e) := by unfold Statement; revert e; decide

theorem perturb : Statement .perturb := by unfold Statement; decide

theorem manual : Statement .manual := by unfold Statement; decide

theorem setduty (v : Byte) : Statement (.setduty v) := by unfold Statement; revert v; decide

theorem delay : Statement .delay := by unfold Statement; decide

theorem ramp (t : Byte) : Statement (.ramp t) := by unfold Statement; revert t; decide

theorem auto (e : Byte) : Statement (.auto e) := by unfold Statement; revert e; decide

theorem run : Statement .run := by unfold Statement; decide

end Sys2Proof.Laws.FieldsLegal
end

