-- ==== Sys2Proof/Laws/Step.lean ====
section
/-!
SUPPORT. Sys2Proof/Laws/Step.lean: said once: what a command's meaning can do (`Micro`, `exec_micro`) and what
a step can do (`step_cases`). Every whole-machine claim is a case analysis over these two.
-/

namespace Sys2Proof.Machine

/-- The commands that run delay waits. -/
def waits : Instr → Bool
  | .delay => true
  | .ramp _ => true
  | .auto _ => true
  | .run => true
  | _ => false

/-- The commands that read a sample for `u`. -/
def reads (i : Instr) : SampleUse → Bool
  | .wait _ => waits i
  | u => belongs i (.await u)

/-- The micro-steps of the commands: `Micro i s t` lists everything the meaning of `i` can do at the position
of `s`. The last case is a position that is none of the command's own, where nothing happens. -/
inductive Micro : Instr → State → State → Prop where
  | enter {i : Instr} {s : State} (h : s.pos = .accept) (hn : i ≠ .nop) (hr : i ≠ .run) :
      Micro i s (enter s)
  | enterRun {s : State} (h : s.pos = .accept) : Micro .run s (enter { s with run := true })
  | nop {s : State} : Micro .nop s (complete s)
  | scale {x : Byte} {s : State} (h : s.pos ≠ .accept) :
      Micro (.scale x) s (complete (writeRes (scale s.build.pwmMin x) s))
  | next {e : Byte} {s : State} (h : s.pos ≠ .accept) :
      Micro (.next e) s
        (complete (writeRes (targetOf s.build.pwmMin (lcg s.rng e)) (writeRng (lcg s.rng e) s)))
  | setduty {v : Byte} {s : State} (h : s.pos ≠ .accept) : Micro (.setduty v) s (complete (setDuty v s))
  | requestSeed {i : Instr} {s : State} (h : s.pos = .start) (hi : i = .seed ∨ i = .run) :
      Micro i s (request .seed s)
  | requestPerturb {s : State} (h : s.pos = .start) : Micro .perturb s (request .perturb s)
  | requestManual {s : State} (h : s.pos = .start) : Micro .manual s (request .manual s)
  | requestDelay {s : State} (h : s.pos = .start) : Micro .delay s (request (.wait .command) s)
  | requestLeg {i : Instr} {s : State} (h : s.pos = .wait) (hi : belongs i .wait = true) :
      Micro i s (request (.wait .leg) s)
  | unitManual {s : State} (h : s.pos = .unit) (hm : s.mode = false) : Micro .run s (request .manual s)
  | unitAuto {s : State} (h : s.pos = .unit) (hm : s.mode = true) : Micro .run s (generate 0 s)
  | generate {e : Byte} {s : State} (h : s.pos = .start) : Micro (.auto e) s (generate e s)
  | rampSetup {t : Byte} {s : State} (h : s.pos = .start) : Micro (.ramp t) s (legSetup t s)
  | legSetup {i : Instr} {t : Byte} {s : State} (h : s.pos = .legStart t)
      (hi : belongs i (.legStart t) = true) : Micro i s (legSetup t s)
  | move {i : Instr} {s : State} (h : s.pos = .decide) (hi : belongs i .decide = true)
      (hm : legMoves s = true) :
      Micro i s (setDuty (moveOne s.dir s.duty) { s with acc := accSum s - 510, pos := .wait })
  | stay {i : Instr} {s : State} (h : s.pos = .decide) (hi : belongs i .decide = true)
      (hm : legMoves s = false) : Micro i s { s with acc := accSum s, pos := .wait }
  | countOn {i : Instr} {s : State} (h : s.pos = .count) (hi : belongs i .count = true)
      (hl : s.stepsLeft ≠ 1) : Micro i s { s with stepsLeft := s.stepsLeft - 1, pos := .decide }
  | legEnd {i : Instr} {s : State} (h : s.pos = .count) (hi : belongs i .count = true)
      (hl : s.stepsLeft = 1) : Micro i s (complete { s with stepsLeft := 0 })
  | answered {i : Instr} {u : SampleUse} {s : State} (h : s.pos = .await u) (hi : reads i u = true)
      (hr : s.smpReq = true) (ha : (pinsOf s).smpAck = true) :
      Micro i s (latch u (pinsOf s).smpData s)
  | unanswered {i : Instr} {u : SampleUse} {s : State} (h : s.pos = .await u) (hi : reads i u = true)
      (ha : s.smpReq = false ∨ (pinsOf s).smpAck = false) : Micro i s { s with smpReq := true }
  | arm {i : Instr} {w : WaitOf} {v : Byte} {s : State} (h : s.pos = .apply (.wait w) v)
      (hi : waits i = true) : Micro i s (armWait w v s)
  | tickOn {i : Instr} {w : WaitOf} {s : State} (h : s.pos = .tick w) (hi : waits i = true)
      (hw : waitEnds s = false) : Micro i s (emit .tick { s with dlyCnt := dlyNext s })
  | tickEnd {i : Instr} {s : State} (h : s.pos = .tick .command) (hi : waits i = true)
      (hw : waitEnds s = true) : Micro i s (complete (emit .tick { s with dlyCnt := dlyNext s }))
  | tickEndLeg {i : Instr} {s : State} (h : s.pos = .tick .leg) (hi : waits i = true)
      (hw : waitEnds s = true) : Micro i s (goTo .count (emit .tick { s with dlyCnt := dlyNext s }))
  | applySeed {i : Instr} {v : Byte} {s : State} (h : s.pos = .apply .seed v)
      (hi : i = .seed ∨ i = .run) : Micro i s (applySeed v s)
  | applyPerturb {v : Byte} {s : State} (h : s.pos = .apply .perturb v) :
      Micro .perturb s (applyPerturb v s)
  | applyManual {i : Instr} {v : Byte} {s : State} (h : s.pos = .apply .manual v)
      (hi : i = .manual ∨ i = .run) : Micro i s (applyManual v s)
  | poll {s : State} (h : s.pos = .poll) : Micro .run s (pollMode s)
  | nothing {i : Instr} {s : State} (h : belongs i s.pos = false) (ha : s.pos ≠ .accept) : Micro i s s

/-- R132. -/
theorem decisionStep_micro {i : Instr} {s : State} (h : s.pos = .decide)
    (hi : belongs i .decide = true) : Micro i s (decisionStep s) := by
  rcases decisionStep_cases s with ⟨hm, e⟩ | ⟨hm, e⟩ <;> rw [e]
  · exact .move h hi hm
  · exact .stay h hi hm

/-- R131. -/
theorem countStep_micro {i : Instr} {s : State} (h : s.pos = .count)
    (hi : belongs i .count = true) : Micro i s (countStep s) := by
  rcases countStep_cases s with ⟨hl, e⟩ | ⟨hl, e⟩ <;> rw [e]
  · exact .legEnd h hi hl
  · exact .countOn h hi hl

/-- R52. -/
theorem awaitSample_micro {i : Instr} {u : SampleUse} {s : State} (h : s.pos = .await u)
    (hi : reads i u = true) : Micro i s (awaitSample u s) := by
  rcases awaitSample_cases u s with ⟨hr, ha, e⟩ | ⟨ha, e⟩ <;> rw [e]
  · exact .answered h hi hr ha
  · exact .unanswered h hi ha

/-- R151. -/
theorem tickStep_micro {i : Instr} {w : WaitOf} {s : State} (h : s.pos = .tick w)
    (hi : waits i = true) : Micro i s (tickStep w s) := by
  rcases tickStep_cases w s with ⟨hw, e⟩ | ⟨hw, rfl, e⟩ | ⟨hw, rfl, e⟩ <;> rw [e]
  · exact .tickOn h hi hw
  · exact .tickEnd h hi hw
  · exact .tickEndLeg h hi hw

/-- A wait's micro-steps are a read, the arming or a tick, or the position is none of these. -/
theorem waitStep_micro {i : Instr} {s : State} (hw : waits i = true)
    (hn : (∀ w, s.pos ≠ .await (.wait w)) → (∀ w v, s.pos ≠ .apply (.wait w) v) →
      (∀ w, s.pos ≠ .tick w) → belongs i s.pos = false ∧ s.pos ≠ .accept) : Micro i s (waitStep s) := by
  unfold waitStep
  split
  · exact awaitSample_micro ‹_› hw
  · exact .arm ‹_› hw
  · exact tickStep_micro ‹_› hw
  · obtain ⟨hb, ha⟩ := hn ‹_› ‹_› ‹_›
    exact .nothing hb ha

/-- A leg's micro-steps are a decision, a request, a count or a wait's, or the position is none of these. -/
theorem legStep_micro {i : Instr} {s : State} (hl : belongs i .decide = true)
    (hn : inLeg s.pos = false → belongs i s.pos = false ∧ s.pos ≠ .accept) : Micro i s (legStep s) := by
  have hi : belongs i .wait = true ∧ belongs i .count = true ∧ waits i = true := by
    clear hn
    revert hl
    cases i <;> simp [belongs, waits, reading, inLeg]
  unfold legStep
  split
  · exact decisionStep_micro ‹_› hl
  · exact .requestLeg ‹_› hi.1
  · exact countStep_micro ‹_› hi.2.1
  · refine waitStep_micro hi.2.2 fun h1 h2 h3 => hn ?_
    cases hp : s.pos with
    | await u => cases u <;> simp_all [inLeg]
    | apply u v => cases u <;> simp_all [inLeg]
    | _ => simp_all [inLeg]

/-- The auto unit's micro-steps after its first. -/
theorem autoStep_micro {i : Instr} {s : State} (hl : belongs i .decide = true)
    (ht : ∀ t, belongs i (.legStart t) = true)
    (hn : inLeg s.pos = false → (∀ t, s.pos ≠ .legStart t) → belongs i s.pos = false ∧ s.pos ≠ .accept) :
    Micro i s (autoStep s) := by
  unfold autoStep
  split
  · exact .legSetup ‹_› (ht _)
  · exact legStep_micro hl fun h => hn h ‹_›

/-- Everything the meaning of a command can do. -/
theorem exec_micro {i : Instr} {s t : State} (h : exec i s = .next t) : Micro i s t := by
  cases i with
  | nop => cases h; exact .nop
  | scale x =>
    simp only [exec, execScale, oneMicroStep, Host.Outcome.next.injEq] at h
    split at h <;> subst h
    · exact .enter ‹_› (by simp) (by simp)
    · exact .scale ‹_›
  | next e =>
    simp only [exec, execNext, oneMicroStep, Host.Outcome.next.injEq] at h
    split at h <;> subst h
    · exact .enter ‹_› (by simp) (by simp)
    · exact .next ‹_›
  | setduty v =>
    simp only [exec, execSetduty, oneMicroStep, Host.Outcome.next.injEq] at h
    split at h <;> subst h
    · exact .enter ‹_› (by simp) (by simp)
    · exact .setduty ‹_›
  | seed =>
    simp only [exec, execSeed, severalMicroSteps, seedStep, Host.Outcome.next.injEq] at h
    split at h
    · subst h; exact .enter ‹_› (by simp) (by simp)
    · subst h; exact .requestSeed ‹_› (.inl rfl)
    · split at h <;> subst h
      · exact awaitSample_micro ‹_› rfl
      · exact .applySeed ‹_› (.inl rfl)
      · refine .nothing ?_ ‹_›
        cases hp : s.pos <;> simp_all [belongs, reading]
  | perturb =>
    simp only [exec, execPerturb, severalMicroSteps, Host.Outcome.next.injEq] at h
    split at h
    · subst h; exact .enter ‹_› (by simp) (by simp)
    · subst h; exact .requestPerturb ‹_›
    · split at h <;> subst h
      · exact awaitSample_micro ‹_› rfl
      · exact .applyPerturb ‹_›
      · refine .nothing ?_ ‹_›
        cases hp : s.pos <;> simp_all [belongs, reading]
  | manual =>
    simp only [exec, execManual, severalMicroSteps, manualStep, Host.Outcome.next.injEq] at h
    split at h
    · subst h; exact .enter ‹_› (by simp) (by simp)
    · subst h; exact .requestManual ‹_›
    · split at h <;> subst h
      · exact awaitSample_micro ‹_› rfl
      · exact .applyManual ‹_› (.inl rfl)
      · refine .nothing ?_ ‹_›
        cases hp : s.pos <;> simp_all [belongs, reading]
  | delay =>
    simp only [exec, execDelay, severalMicroSteps, Host.Outcome.next.injEq] at h
    split at h <;> subst h
    · exact .enter ‹_› (by simp) (by simp)
    · exact .requestDelay ‹_›
    · refine waitStep_micro rfl fun h1 h2 h3 => ⟨?_, ‹_›⟩
      cases hp : s.pos with
      | await u => cases u <;> simp_all [belongs, reading]
      | apply u v => cases u <;> simp_all [belongs, reading]
      | _ => simp_all [belongs, reading]
  | ramp t =>
    simp only [exec, execRamp, severalMicroSteps, Host.Outcome.next.injEq] at h
    split at h <;> subst h
    · exact .enter ‹_› (by simp) (by simp)
    · exact .rampSetup ‹_›
    · exact legStep_micro rfl fun hl => ⟨by simp_all [belongs], ‹_›⟩
  | auto e =>
    simp only [exec, execAuto, severalMicroSteps, Host.Outcome.next.injEq] at h
    split at h <;> subst h
    · exact .enter ‹_› (by simp) (by simp)
    · exact .generate ‹_›
    · refine autoStep_micro rfl (fun _ => rfl) fun hl ht => ⟨?_, ‹_›⟩
      cases hp : s.pos <;> simp_all [belongs, inLeg]
  | run =>
    simp only [exec, execRun, Host.Outcome.next.injEq] at h
    split at h
    · subst h; exact .enterRun ‹_›
    · subst h; exact .requestSeed ‹_› (.inr rfl)
    · unfold runStep at h
      split at h
      · subst h; exact awaitSample_micro ‹_› rfl
      · subst h; exact .applySeed ‹_› (.inr rfl)
      · subst h; exact .poll ‹_›
      · subst h
        unfold unitStart
        split
        · exact .unitAuto ‹_› ‹_›
        · exact .unitManual ‹_› (by simp_all)
      · subst h; exact awaitSample_micro ‹_› rfl
      · subst h; exact .applyManual ‹_› (.inr rfl)
      · subst h
        refine autoStep_micro rfl (fun _ => rfl) fun hl ht => ⟨?_, ‹_›⟩
        cases hp : s.pos with
        | await u => cases u <;> simp_all [belongs, reading, inLeg]
        | apply u v => cases u <;> simp_all [belongs, reading, inLeg]
        | _ => simp_all [belongs, reading, inLeg]

/-- A command's meaning, when a step of the machine ends with a state. -/
theorem afterCommand_next {o : Host.Outcome State Fault Refusal} {t : State}
    (h : afterCommand o = .next t) : ∃ u, o = .next u ∧ t = advance u := by
  cases o with
  | next u => exact ⟨u, rfl, by simpa [afterCommand] using h.symm⟩
  | fault r => simp [afterCommand] at h
  | refused r => simp [afterCommand] at h

/-- What a step can do: reset; accept a word, legal or not; wait for one; or run the command in progress. -/
inductive StepCase (s t : State) : Prop where
  | reset (hr : (pinsOf s).rst = true) (ht : t = resetCycle s)
  | accept (i : Instr) (u : State) (hr : (pinsOf s).rst = false) (hi : idleAndReady s = true)
      (hv : (pinsOf s).cmdValid = true) (hd : decode (pinsOf s).cmd = .legal i)
      (hm : Micro i (acceptCommand (pinsOf s).cmd (quiet s)) u) (ht : t = advance u)
  | illegal (why : Illegal) (hr : (pinsOf s).rst = false) (hi : idleAndReady s = true)
      (hv : (pinsOf s).cmdValid = true) (hd : decode (pinsOf s).cmd = .illegal why)
      (ht : t = illegalCycle (pinsOf s).cmd s)
  | idle (hr : (pinsOf s).rst = false) (hi : idleAndReady s = true) (hv : (pinsOf s).cmdValid = false)
      (ht : t = idleCycle s)
  | inProgress (i : Instr) (u : State) (hr : (pinsOf s).rst = false) (hi : idleAndReady s = false)
      (hd : decode s.cmd = .legal i) (hm : Micro i (quiet s) u) (ht : t = advance u)

/-- Said once for `step`. -/
theorem step_cases {s t : State} (h : step s = .next t) : StepCase s t := by
  unfold step cycle at h
  split at h
  · exact .reset ‹_› (by simpa using h.symm)
  · have hr : (pinsOf s).rst = false := by simp_all
    split at h
    · split at h
      · split at h
        · obtain ⟨u, hu, ht⟩ := afterCommand_next h
          exact .accept _ u hr ‹_› ‹_› ‹_› (exec_micro hu) ht
        · exact .illegal _ hr ‹_› ‹_› ‹_› (by simpa using h.symm)
      · exact .idle hr ‹_› (by simp_all) (by simpa using h.symm)
    · have hi : idleAndReady s = false := by simp_all
      split at h
      · obtain ⟨u, hu, ht⟩ := afterCommand_next h
        exact .inProgress _ u hr hi ‹_› (exec_micro hu) ht
      · simp at h

/-- At acceptance a command enters, except NOP, which completes. -/
theorem micro_accept {i : Instr} {s t : State} (hp : s.pos = .accept) (h : Micro i s t) :
    (i = .nop ∧ t = complete s) ∨ (i = .run ∧ t = enter { s with run := true }) ∨
    (i ≠ .nop ∧ i ≠ .run ∧ t = enter s) := by
  cases h <;> simp_all

end Sys2Proof.Machine
end

