-- ==== Sys2Proof/Tests/Slice0.lean ====
section
/-!
SUPPORT. Sys2Proof/Tests/Slice0.lean: the model's own tests. The expected values are the spec's (95 and the
rules' examples), or worked by hand from the rules where a comment says so. The `witness_` theorems show,
for each statement that has hypotheses, a state and operands that meet them.
-/

namespace Sys2Proof.Tests

open Sys2Proof.Machine

/-! ## Small states -/

/-- The parameters of spec 95: `PWM_MIN` 62, `DELAY_OFFSET` 10, `DELAY_BUDGET` 0x2000. -/
def block : Build where
  pwmMin := 62
  delayOffset := 10
  delayBudget := 0x2000
  rngInit := 0x0000
  initDuty := 0xFF
  modeAutoLevel := true
  offset_pos := by decide

/-- The least demanding block: every wait is one tick (43_delay R155: "With `DELAY_BUDGET = 0`"). -/
def quickBlock : Build := { block with delayOffset := 1, delayBudget := 0, offset_pos := by decide }

/-- Input levels without reset or command. -/
def levels (ack : Bool) (v : Byte) (modeSw : Bool) : Pins where
  rst := false
  cmdValid := false
  cmd := 0
  smpAck := ack
  smpData := v
  modeSw := modeSw

/-- The levels of a step at which the sampler answers 0x5A. -/
def answer : Pins := levels true 0x5A true

/-- A ready CORE in the block of spec 95. -/
def ready : State := { State.reset with build := block, script := [answer] }

/-- The command `w` in progress at the position `p`. -/
def inCommand (w : Word) (p : Pos) : State := { ready with cmd := w, busy := true, pos := p }

/-- RUN in progress at the position `p`. -/
def inRun (p : Pos) : State := { inCommand 0xA000 p with run := true }

/-- A CORE that is offered the word `w`. -/
def offered (w : Nat) : State := ready.withFetchWord 16 w

/-- The next state of an outcome. -/
def after : Host.Outcome State Fault Refusal → Option State
  | .next s => some s
  | .fault _ => none
  | .refused _ => none

/-! ## Well-formedness: an ill-formed term for each check -/

theorem test_reserved_op_refused :
    Fields.wellFormed { op := 0xB, rsv := 0, imm := 0 } = false := by decide

theorem test_reserved_bits_refused :
    Fields.wellFormed { op := 0x0, rsv := 1, imm := 0 } = false := by decide

theorem test_operand_on_cn_refused :
    Fields.wellFormed { op := 0x2, rsv := 0, imm := 1 } = false := by decide

theorem test_fields_accepted :
    Fields.wellFormed { op := 0x1, rsv := 0, imm := 0xFF } = true := by decide

/-- The parameters of spec 95 as plain numbers. -/
def rawBlock : RawBuild where
  pwmMin := 62
  delayOffset := 10
  delayBudget := 0x2000
  rngInit := 0
  initDuty := 0xFF
  modeAutoLevel := true

theorem test_build_accepted : rawBlock.toBuild = some block := by decide

theorem test_pwm_min_refused :
    RawBuild.toBuild { rawBlock with pwmMin := 256 } = none ∧
    RawBuild.toBuild { rawBlock with pwmMin := -1 } = none := by decide

theorem test_delay_offset_refused :
    RawBuild.toBuild { rawBlock with delayOffset := 0 } = none ∧
    RawBuild.toBuild { rawBlock with delayOffset := 256 } = none := by decide

theorem test_delay_budget_refused :
    RawBuild.toBuild { rawBlock with delayBudget := 32768 } = none ∧
    RawBuild.toBuild { rawBlock with delayBudget := -1 } = none := by decide

/-! ## Decoding: words written out from R71 and R74, bit 15 first -/

theorem test_decode_nop : decode 0b0000000000000000#16 = .legal .nop := by decide
theorem test_decode_scale : decode 0b0001000010000000#16 = .legal (.scale 0x80) := by decide
theorem test_decode_seed : decode 0b0010000000000000#16 = .legal .seed := by decide
theorem test_decode_next : decode 0b0011000011111111#16 = .legal (.next 0xFF) := by decide
theorem test_decode_perturb : decode 0b0100000000000000#16 = .legal .perturb := by decide
theorem test_decode_manual : decode 0b0101000000000000#16 = .legal .manual := by decide
theorem test_decode_setduty : decode 0b0110000001000001#16 = .legal (.setduty 0x41) := by decide
theorem test_decode_delay : decode 0b0111000000000000#16 = .legal .delay := by decide
theorem test_decode_ramp : decode 0b1000000010000001#16 = .legal (.ramp 0x81) := by decide
theorem test_decode_auto : decode 0b1001000000000010#16 = .legal (.auto 0x02) := by decide
theorem test_decode_run : decode 0b1010000000000000#16 = .legal .run := by decide

/-- Spec 95 section 2.1. -/
theorem test_decode_illegal :
    decode 0x1F00 = .illegal .reservedBits ∧ decode 0x2001 = .illegal .operandOnCN ∧
    decode 0x5080 = .illegal .operandOnCN ∧ decode 0xA100 = .illegal .reservedBits ∧
    decode 0xFFFF = .illegal .reservedOp := by decide

theorem test_table_word : decodeTableWord 16 0x1080 = some (.scale 0x80) := by decide

/-! ## Assembling (R78, R79; program 2 of spec 95) -/

theorem test_assemble_program :
    assemble [['W', 'A', 'R', 'M', 'U', 'P'], ['s', 'e', 'e', 'd', ' ', ';', 'x'], [],
      ['A', 'U', 'T', 'O', ' ', '0']] = some [0x60FF, 0x2000, 0x9000] := by decide

theorem test_assemble_raw_word :
    assembleLine ['.', 'w', 'o', 'r', 'd', ' ', '0', 'x', 'B', '0', '0', '0'] = .word 0xB000 := by decide

theorem test_assemble_errors :
    assembleLine ['S', 'C', 'A', 'L', 'E'] = .error .immediateMissing ∧
    assembleLine ['S', 'C', 'A', 'L', 'E', ' ', '2', '5', '6'] = .error .immediateOutOfRange ∧
    assembleLine ['S', 'E', 'E', 'D', ' ', '1'] = .error .immediateNotAllowed := by decide

/-! ## One step of each command -/

/-- R104's example: `SCALE 0x80` gives `res = 0x9F`. -/
theorem test_scale :
    (after (exec (.scale 0x80) (inCommand 0x1080 .start))).map (fun s => (s.res, s.busy)) =
      some (0x9F, false) := by decide

/-- R114: the addition wraps: `rng = 0xFF00` with `v = 0x01` gives 0x0000. -/
theorem test_seed_wraps :
    (after (exec .seed { inCommand 0x2000 (.apply .seed 0x01) with rng := 0xFF00 })).map (·.rng) =
      some 0x0000 := by decide

/-- R114's example, its read: the sampler answers 0x5A. -/
theorem test_seed_reads :
    (after (exec .seed { inCommand 0x2000 (.await .seed) with smpReq := true })).map
      (fun s => (s.pos, s.smpReq, s.trace)) =
      some (.apply .seed 0x5A, false, [.sampleRead 0x5A]) := by decide

/-- R115's corner case: `rng = 0xFFFF`, `e = 0xFF` gives 0x342D, and `res = 0x65` (spec 95). -/
theorem test_next_wraps :
    (after (exec (.next 0xFF) { inCommand 0x30FF .start with rng := 0xFFFF })).map
      (fun s => (s.rng, s.res)) = some (0x342D, 0x65) := by decide

/-- R116: `rng = 0xFFFF` with `v = 0x01` gives 0x0000. -/
theorem test_perturb_wraps :
    (after (exec .perturb { inCommand 0x4000 (.apply .perturb 0x01) with rng := 0xFFFF })).map (·.rng) =
      some 0x0000 := by decide

/-- Spec 95 section 2.6: `rng = 0xFFFF` with 0xFF: `DutyWrite(0xFF)`, `rng = 0x00FE`. -/
theorem test_manual :
    (after (exec .manual { inCommand 0x5000 (.apply .manual 0xFF) with rng := 0xFFFF, duty := 0 })).map
      (fun s => (s.duty, s.rng, s.trace, s.pwmWe)) =
      some (0xFF, 0x00FE, [.dutyWrite 0xFF], true) := by decide

/-- R138: `SETDUTY 0xFF` when `duty = 0xFF` still gives one `DutyWrite(0xFF)`. -/
theorem test_setduty_same_value :
    (after (exec (.setduty 0xFF) (inCommand 0x60FF .start))).map (fun s => (s.duty, s.trace, s.busy)) =
      some (0xFF, [.dutyWrite 0xFF], false) := by decide

/-- R155's example, the last tick: after 59 of 60 ticks `dly_cnt = 8192 - 59*137 = 109`; the last leaves
-28. -/
theorem test_delay_last_tick :
    (after (exec .delay
      { inCommand 0x7000 (.tick .command) with dlyUnits := 137, dlyCnt := 109 })).map
      (fun s => (s.dlyCnt.toInt, s.busy)) = some (-28, false) := by decide

/-- R155: when `du` divides `B` exactly the count is one more: at `dly_cnt = 0` the wait goes on. -/
theorem test_delay_goes_on_at_zero :
    (after (exec .delay
      { inCommand 0x7000 (.tick .command) with dlyUnits := 20, dlyCnt := 20 })).map
      (fun s => (s.dlyCnt.toInt, s.busy)) = some (0, true) := by decide

/-- Spec 95 section 2.4, the leg 0xFF to 0x65: `mag = 308`, downward. -/
theorem test_ramp_setup :
    (after (exec (.ramp 0x65) (inCommand 0x8065 .start))).map
      (fun s => (s.mag, s.dir, s.acc.toInt, s.stepsLeft, s.trace)) =
      some (308, true, -255, 255, []) := by decide

/-- Spec 95 section 2.4, the leg 0xFF to 0x65: its first decision step moves to 0xFE. -/
theorem test_ramp_first_move :
    (after (exec (.ramp 0x65)
      { inCommand 0x8065 .decide with
        mag := 308, dir := true, acc := BitVec.ofInt 16 (-255), tgt := 0x65, stepsLeft := 255 })).map
      (fun s => (s.duty, s.acc.toInt, s.trace)) = some (0xFE, -457, [.dutyWrite 0xFE]) := by decide

/-- R172's example: `AUTO 0` from `rng = 0x5A00` gives `rng = 0xF533` and `res = 0xF7`. -/
theorem test_auto_generates :
    (after (exec (.auto 0) { inCommand 0x9000 .start with rng := 0x5A00 })).map
      (fun s => (s.rng, s.res, s.pos)) = some (0xF533, 0xF7, .legStart 0xF7) := by decide

/-- Program 6 of spec 95, its third poll: `ModePoll(1)`, `mode = 1`, `STATUS = 0x07`. -/
theorem test_run_poll :
    (after (exec .run (inRun .poll))).map (fun s => (s.mode, status s, s.trace)) =
      some (true, 0x07, [.modePoll true]) := by decide

/-- R174, R175: after a poll that saw Auto the unit begins with the generator's step, `e = 0`. -/
theorem test_run_auto_unit :
    (after (exec .run { inRun .unit with mode := true, rng := 0x5AC0 })).map
      (fun s => (s.rng, s.res)) = some (0xF8F3, 0xFA) := by decide

/-- R170: NOP is complete after its acceptance. -/
theorem test_nop_step :
    (after (step (offered 0x0000))).map (fun s => (s.busy, s.pos, s.trace)) =
      some (false, .idle, [.cmdAccept 0x0000]) := by decide

/-- R70, R28: acceptance of SETDUTY raises BUSY; the write comes in its own micro-step. -/
theorem test_accept_step :
    (after (step (offered 0x6040))).map (fun s => (s.cmd, status s, s.duty, s.trace)) =
      some (0x6040, 0x01, 0xFF, [.cmdAccept 0x6040]) := by decide

/-- Spec 95 section 2.7: `.word 0xB000` after reset: `err_cmd = 0xB000`, `STATUS = 0x08`. -/
theorem test_illegal_step :
    (after (step (offered 0xB000))).map (fun s => (s.errCmd, status s, s.trace)) =
      some (0xB000, 0x08, [.cmdAccept 0xB000]) := by decide

/-- Spec 95 section 2.7: a second illegal word leaves `err_cmd`. -/
theorem test_second_illegal_step :
    (after (step { offered 0x2001 with err := true, errCmd := 0xB000 })).map
      (fun s => (s.errCmd, status s)) = some (0xB000, 0x08) := by decide

/-- R220: reset in the middle of a leg's tick; no event; the external register keeps its value (R224). -/
theorem test_reset_step :
    (after (step { inCommand 0x8065 (.tick .leg) with
      duty := 0x70, pwmReg := 0x70, script := [{ answer with rst := true }] })).map
      (fun s => (s.duty, s.pwmReg, s.busy, s.pos, s.trace)) =
      some (0xFF, 0x70, false, .idle, []) := by decide

/-- R220: in a cycle with `rst = 1` right after a strobe, and inside a transaction, `pwm_we`, `smp_req` and
`cmd_ready` are 0; without reset the strobe shows (R53). -/
theorem test_reset_holds_ports :
    (let o := outputs { ready with pwmWe := true, smpReq := true, script := [{ answer with rst := true }] }
     (o.cmdReady, o.smpReq, o.pwmWe)) = (false, false, false) ∧
    (outputs { ready with pwmWe := true }).pwmWe = true := by decide

/-- R233: a sampler that does not answer leaves the CORE where it is. -/
theorem test_unanswered_step :
    (after (step { inCommand 0x2000 (.await .seed) with
      smpReq := true, script := [levels false 0x5A true] })).map (fun s => (s.pos, s.smpReq, s.trace)) =
      some (.await .seed, true, []) := by decide

/-- R221, R70: the first step after reset with a table word runs it (here RUN's acceptance). -/
theorem test_first_step_after_reset :
    (after (step (State.reset.withFetchWord 16 0xA000))).map (fun s => (s.run, s.busy, s.cmd)) =
      some (true, true, 0xA000) := by decide

/-! ## Witnesses: states and operands that meet the statements' hypotheses

Each clause of a statement has its own; the operands are boundary values where a clause has a range. -/

/-- The step answers a next state. -/
def goesOn (o : Host.Outcome State Fault Refusal) : Bool := (after o).isSome

/-- RAMP 0x65 from 0xFF at its first decision step, which moves (spec 95 section 2.4). -/
def downLeg : State :=
  { inCommand 0x8065 .decide with
    mag := 308, dir := true, acc := BitVec.ofInt 16 (-255), tgt := 0x65, stepsLeft := 255 }

/-- RAMP 0xFF from 0x3E (d = 193) at its first decision step, which moves upward. -/
def upLeg : State :=
  { inCommand 0x80FF .decide with
    duty := 0x3E, mag := 386, acc := BitVec.ofInt 16 (-255), tgt := 0xFF, stepsLeft := 255 }

/-- RAMP 0x81 from 0x80 at its first decision step, which does not move. -/
def stillLeg : State :=
  { inCommand 0x8081 .decide with
    duty := 0x80, mag := 2, acc := BitVec.ofInt 16 (-255), tgt := 0x81, stepsLeft := 255 }

/-- RAMP 0x81 at its last loop test. -/
def lastCount : State :=
  { inCommand 0x8081 .count with
    duty := 0x81, mag := 2, acc := BitVec.ofInt 16 (-255), tgt := 0x81, stepsLeft := 1 }

/-- `s` in the least demanding block, with the sampler answering at every step that a leg can take. -/
def answering (s : State) : State :=
  { s with build := quickBlock, script := List.replicate 1533 answer }

theorem quick_legStepsBound : legStepsBound quickBlock = 1531 := by decide

theorem answering_meets (s : State) {n : Nat} (h : n ≤ 1533) : Answering n (answering s) := by
  refine ⟨⟨le_of_le_of_eq h List.length_replicate.symm, fun p hp => ?_⟩, fun p hp => ?_⟩ <;>
    rw [List.eq_of_mem_replicate (List.mem_of_mem_take hp)] <;> rfl

theorem downLeg_inv : Inv downLeg where
  sequencer :=
    { idle_iff := by decide
      not_accept := by decide
      run_busy := by decide
      smpReq_iff := by decide
      legStart_res := by intro t h; cases h
      command := fun _ => ⟨.ramp 0x65, by decide, by decide, by decide⟩ }
  leg := fun _ => ⟨by decide, by decide, by decide, by decide, by decide⟩
  countdown := fun h => nomatch h
  ranges := ⟨by decide, by decide, by decide, by decide, by decide, by decide⟩

theorem upLeg_inv : Inv upLeg where
  sequencer :=
    { idle_iff := by decide
      not_accept := by decide
      run_busy := by decide
      smpReq_iff := by decide
      legStart_res := by intro t h; cases h
      command := fun _ => ⟨.ramp 0xFF, by decide, by decide, by decide⟩ }
  leg := fun _ => ⟨by decide, by decide, by decide, by decide, by decide⟩
  countdown := fun h => nomatch h
  ranges := ⟨by decide, by decide, by decide, by decide, by decide, by decide⟩

theorem stillLeg_inv : Inv stillLeg where
  sequencer :=
    { idle_iff := by decide
      not_accept := by decide
      run_busy := by decide
      smpReq_iff := by decide
      legStart_res := by intro t h; cases h
      command := fun _ => ⟨.ramp 0x81, by decide, by decide, by decide⟩ }
  leg := fun _ => ⟨by decide, by decide, by decide, by decide, by decide⟩
  countdown := fun h => nomatch h
  ranges := ⟨by decide, by decide, by decide, by decide, by decide, by decide⟩

theorem lastCount_inv : Inv lastCount where
  sequencer :=
    { idle_iff := by decide
      not_accept := by decide
      run_busy := by decide
      smpReq_iff := by decide
      legStart_res := by intro t h; cases h
      command := fun _ => ⟨.ramp 0x81, by decide, by decide, by decide⟩ }
  leg := fun _ => ⟨by decide, by decide, by decide, by decide, by decide⟩
  countdown := fun h => nomatch h
  ranges := ⟨by decide, by decide, by decide, by decide, by decide, by decide⟩

/-! ### Encoding -/

theorem witness_EncodedCommandDecodes :
    wellFormed (.scale 0x00) = true ∧ wellFormed (.ramp 0xFF) = true ∧ wellFormed .run = true := by decide

theorem witness_LegalWordIsItsCommandsWord :
    decode 0x0000 = .legal .nop ∧ decode 0x90FF = .legal (.auto 0xFF) := by decide

theorem witness_DecodeFollowsTheOpcodeMap :
    ∀ r ∈ opcodeMap, rowMatches r (BitVec.ofNat 16 (r.op * 4096)) = true := by decide

theorem witness_DecodingIsTotalAndCounted :
    isLegal (decode 0xA000) = true ∧ isLegal (decode 0xB000) = false ∧ isLegal (decode 0x1100) = false ∧
    isLegal (decode 0xA001) = false := by decide

/-! ### The step -/

theorem witness_AcceptedWordRunsItsCommand :
    (pinsOf (offered 0x80FF)).rst = false ∧ (offered 0x80FF).busy = false ∧
    (offered 0x80FF).run = false ∧ (pinsOf (offered 0x80FF)).cmdValid = true ∧
    decode (pinsOf (offered 0x80FF)).cmd = .legal (.ramp 0xFF) := by decide

theorem witness_CommandInProgressRunsOn :
    (pinsOf downLeg).rst = false ∧ downLeg.busy = true ∧ decode downLeg.cmd = .legal (.ramp 0x65) ∧
    (inRun .poll).run = true ∧ decode (inRun .poll).cmd = .legal .run := by decide

theorem witness_AcceptanceEntersTheCommand :
    (inCommand 0x2000 .accept).pos = .accept ∧ (Instr.seed ≠ .nop) ∧ (Instr.run ≠ .nop) := by decide

theorem witness_IllegalWordSetsErrAlone :
    (pinsOf (offered 0xB000)).rst = false ∧ (offered 0xB000).busy = false ∧ (offered 0xB000).run = false ∧
    (pinsOf (offered 0xB000)).cmdValid = true ∧
    decode (pinsOf (offered 0xB000)).cmd = .illegal .reservedOp ∧
    decode (pinsOf (offered 0x0100)).cmd = .illegal .reservedBits ∧
    decode (pinsOf (offered 0xA0FF)).cmd = .illegal .operandOnCN := by decide

theorem witness_NoAcceptanceWhileNotReady :
    (pinsOf downLeg).rst = false ∧ downLeg.busy = true ∧ goesOn (step downLeg) = true ∧
    (inRun .poll).run = true ∧ goesOn (step (inRun .poll)) = true := by decide

theorem witness_ResetSetsEveryRegister :
    (pinsOf { downLeg with script := [{ answer with rst := true }] }).rst = true ∧
    (pinsOf { downLeg with pwmWe := true, script := [{ answer with rst := true }] }).rst = true := by
  decide

theorem witness_ReadyCoreWaitsForACommand :
    (pinsOf ready).rst = false ∧ ready.busy = false ∧ ready.run = false ∧
    (pinsOf ready).cmdValid = false := by decide

theorem witness_StepKeepsTheBuildAndEmitsAtMostOneEvent :
    goesOn (step downLeg) = true ∧ goesOn (step ready) = true := by decide

/-! ### Whole-machine rules -/

theorem witness_EveryStepKeepsTheInvariant :
    Inv downLeg ∧ goesOn (step downLeg) = true ∧ Inv lastCount ∧ goesOn (step lastCount) = true :=
  ⟨downLeg_inv, by decide, lastCount_inv, by decide⟩

theorem witness_NoCommandAndNoStepStops : Inv downLeg ∧ Inv lastCount := ⟨downLeg_inv, lastCount_inv⟩

theorem witness_DutyStaysAboveTheFloor :
    Inv upLeg ∧ DutyFloor upLeg ∧ FloorRespected upLeg ∧ goesOn (step upLeg) = true := by
  refine ⟨upLeg_inv, ⟨by decide, by decide, ?_, ?_, ?_⟩, ⟨by decide, ?_, ?_⟩, by decide⟩
  · intro t h; cases h
  · intro _ v h; cases h
  · intro _ t h; cases h; decide
  · intro h; cases h
  · intro h; cases h

theorem witness_DutyAndPwmPortMoveTogether :
    (pinsOf downLeg).rst = false ∧ (after (step downLeg)).map (·.pwmWe) = some true ∧
    (pinsOf stillLeg).rst = false ∧ (after (step stillLeg)).map (·.pwmWe) = some false := by decide

theorem witness_DataRegistersHaveTheirWriters :
    (pinsOf (inCommand 0x3000 .start)).rst = false ∧
    (after (step (inCommand 0x3000 .start))).map (fun t => (t.rng, t.res)) = some (0x3333, 0x65) ∧
    (inCommand 0x3000 .start).rng = 0x0000 ∧ (inCommand 0x3000 .start).res = 0x00 ∧
    (pinsOf downLeg).rst = false ∧ (after (step downLeg)).map (·.duty) = some 0xFE ∧
    downLeg.duty = 0xFF := by decide

theorem witness_ModeChangesOnlyAtThePoll :
    (pinsOf (inRun .poll)).rst = false ∧ (after (step (inRun .poll))).map (·.mode) = some true ∧
    (inRun .poll).mode = false := by decide

theorem witness_ErrIsSticky :
    (pinsOf { offered 0x2001 with err := true }).rst = false ∧
    goesOn (step { offered 0x2001 with err := true }) = true := by decide

theorem witness_RunNeverCompletes :
    (pinsOf (inRun .unit)).rst = false ∧ (inRun .unit).run = true ∧ (inRun .unit).busy = true ∧
    goesOn (step (inRun .unit)) = true := by decide

theorem witness_DeadRegistersNeverMatter :
    forgetDead ready = forgetDead { ready with acc := 5, mag := 510, dir := true, dlyCnt := 7 } ∧
    forgetDead (inCommand 0x8065 .start) = forgetDead { inCommand 0x8065 .start with stepsLeft := 9 } := ⟨rfl, rfl⟩

theorem witness_UnreadInputsAreIgnored :
    downLeg.smpReq = false ∧ downLeg.pos ≠ .poll ∧ (inRun .unit).pos ≠ .poll := by decide

/-! ### The scaler and the generator -/

theorem witness_ScaleRangeEndpointsAndMonotonicity :
    (2#8).toNat < (3#8).toNat ∧ (0#8).toNat < (255#8).toNat := by decide

theorem witness_ScaleWritesResAlone :
    (inCommand 0x10FF .start).pos = .start ∧ (inCommand 0x10FF .start).run = false := by decide

theorem witness_LcgHasFullPeriod : 0 < 1 ∧ 1 < 65536 ∧ 65535 < 65536 := by decide

theorem witness_SeedFoldsASampleIntoTheHighByte :
    (inCommand 0x2000 .start).run = false ∧ (inCommand 0x2000 .start).pos = .start ∧
    (inCommand 0x2000 (.apply .seed 0xFF)).run = false ∧
    (inCommand 0x2000 (.apply .seed 0xFF)).pos = .apply .seed 0xFF := by decide

theorem witness_NextStepsTheGenerator :
    (inCommand 0x30FF .start).pos = .start ∧ (inCommand 0x30FF .start).run = false := by decide

theorem witness_PerturbAddsASample :
    (inCommand 0x4000 .start).run = false ∧ (inCommand 0x4000 .start).pos = .start ∧
    (inCommand 0x4000 (.apply .perturb 0xFF)).run = false ∧
    (inCommand 0x4000 (.apply .perturb 0xFF)).pos = .apply .perturb 0xFF := by decide

/-- Inside a read, with the sampler answering and not answering. -/
theorem witness_SamplerTransaction :
    belongs .seed (.await .seed) = true ∧ belongs (.ramp 0x65) (.await (.wait .leg)) = true ∧
    (let s := { inCommand 0x2000 (.await .seed) with smpReq := true }
     s.pos = .await .seed ∧ s.smpReq = true ∧ (pinsOf s).smpAck = true) ∧
    (let s := { inCommand 0x2000 (.await .seed) with smpReq := true, script := [levels false 0 true] }
     s.pos = .await .seed ∧ s.smpReq = true ∧ (pinsOf s).smpAck = false) := by decide

/-! ### The ramp -/

theorem witness_SetdutyWritesAndStrobes :
    (inCommand 0x60FF .start).pos = .start ∧ (inCommand 0x60FF .start).run = false := by decide

theorem witness_LegSetup :
    (inCommand 0x8000 .start).pos = .start ∧ (inCommand 0x9000 (.legStart 0xFF)).pos = .legStart 0xFF := by
  decide

theorem witness_DecisionStepMovesAtMostOneUnit :
    belongs (.ramp 0x65) .decide = true ∧ belongs (.auto 0) .decide = true ∧ belongs .run .decide = true ∧
    downLeg.pos = .decide ∧ legMoves downLeg = true ∧ stillLeg.pos = .decide ∧
    legMoves stillLeg = false := by decide

theorem witness_LegLoopCountsItsSteps :
    belongs (.ramp 0x81) .count = true ∧ belongs .run .count = true ∧
    (inCommand 0x8081 .wait).pos = .wait ∧
    ({ lastCount with stepsLeft := 2 } : State).pos = .count ∧
    ({ lastCount with stepsLeft := 2 } : State).stepsLeft ≠ 1 ∧
    lastCount.pos = .count ∧ lastCount.stepsLeft = 1 ∧ lastCount.run = false ∧
    ({ inRun .count with stepsLeft := 1 } : State).stepsLeft = 1 ∧
    ({ inRun .count with stepsLeft := 1 } : State).run = true := by decide

theorem witness_AccumulatorStaysInBounds :
    belongs (.ramp 0x65) .decide = true ∧ downLeg.pos = .decide ∧ Inv downLeg ∧
    goesOn (exec (.ramp 0x65) downLeg) = true ∧
    Inv lastCount ∧ lastCount.pos = .count ∧ lastCount.stepsLeft = 1 :=
  ⟨by decide, by decide, downLeg_inv, by decide, lastCount_inv, by decide, by decide⟩

theorem witness_MovesNeverWrapAndReachTheTarget :
    (Inv downLeg ∧ downLeg.pos = .decide ∧ 0 ≤ (downLeg.acc + downLeg.mag.setWidth 16).toInt ∧
      downLeg.dir = true) ∧
    (Inv upLeg ∧ upLeg.pos = .decide ∧ 0 ≤ (upLeg.acc + upLeg.mag.setWidth 16).toInt ∧
      upLeg.dir = false) ∧
    (Inv lastCount ∧ lastCount.pos = .count ∧ lastCount.stepsLeft = 1) :=
  ⟨⟨downLeg_inv, by decide, by decide, by decide⟩, ⟨upLeg_inv, by decide, by decide, by decide⟩,
    ⟨lastCount_inv, by decide, by decide⟩⟩

theorem witness_RampRunsOneWholeLeg :
    (let s := answering (inCommand 0x8065 .start)
     s.busy = true ∧ s.run = false ∧ s.pos = .start ∧ decode s.cmd = .legal (.ramp 0x65) ∧
     Answering (legStepsBound s.build) s) :=
  ⟨by decide, by decide, by decide, by decide,
    answering_meets _ (by rw [show (answering _).build = quickBlock from rfl, quick_legStepsBound]; decide)⟩

theorem witness_LegEventsMoveOneUnitAtATime :
    (List.replicate 255 (0x7F : Byte)).length = 255 := List.length_replicate

theorem witness_MovesAreSpreadEvenly :
    (1 ≤ 1 ∧ 1 ≤ 255 ∧ 0 ≤ 255) ∧ (1 ≤ 255 ∧ 255 ≤ 255 ∧ 255 ≤ 255 ∧ 1 ≤ 254 ∧ 254 < 255) := by decide

/-! ### The delay -/

theorem witness_DelayWaitMicroSteps :
    (inCommand 0x7000 .start).pos = .start ∧
    belongs .delay (.tick .command) = true ∧ belongs .run (.tick .leg) = true ∧
    (inCommand 0x7000 (.apply (.wait .command) 0xFF)).pos = .apply (.wait .command) 0xFF ∧
    (let s := { inCommand 0x7000 (.tick .command) with dlyUnits := 20, dlyCnt := 20 }
     s.pos = .tick .command ∧ 0 ≤ (s.dlyCnt - s.dlyUnits.setWidth 16).toInt) ∧
    (let s := { inCommand 0x7000 (.tick .command) with dlyUnits := 20, dlyCnt := 19 }
     s.pos = .tick .command ∧ (s.dlyCnt - s.dlyUnits.setWidth 16).toInt < 0 ∧ s.run = false) ∧
    (let s := { inRun (.tick .leg) with dlyUnits := 20, dlyCnt := 19 }
     s.pos = .tick .leg ∧ (s.dlyCnt - s.dlyUnits.setWidth 16).toInt < 0) := by decide

theorem witness_DelayRunsOneWholeWait :
    (let s := answering (inCommand 0x7000 .start)
     s.busy = true ∧ s.run = false ∧ s.pos = .start ∧ decode s.cmd = .legal .delay ∧
     s.script = answer :: answer :: List.replicate 1531 answer ∧
     NoReset (3 + ticks s.build.delayBudget.toNat (answer.smpData.toNat + s.build.delayOffset.toNat)) s ∧
     answer.smpAck = true) :=
  ⟨by decide, by decide, by decide, by decide, rfl, (answering_meets _ (by decide)).1, rfl⟩

theorem witness_TicksNeverIncreaseWithTheSample : 1 ≤ 1 ∧ 1 ≤ 510 ∧ 0 ≤ 255 := by decide

theorem witness_LegTicksAreBounded : (List.replicate 255 (0xFF : Byte)).length = 255 := List.length_replicate

/-! ### The units of work -/

theorem witness_NopCompletesAtOnce : (inCommand 0x0000 .accept).run = false := by decide

theorem witness_ManualWritesTheScaledSample :
    (inCommand 0x5000 .start).run = false ∧ (inCommand 0x5000 .start).pos = .start ∧
    (inCommand 0x5000 (.apply .manual 0x00)).run = false ∧
    (inCommand 0x5000 (.apply .manual 0x00)).pos = .apply .manual 0x00 := by decide

theorem witness_AutoGeneratesItsTarget : (inCommand 0x90FF .start).pos = .start := by decide

theorem witness_AutoRunsOneWholeUnit :
    (let s := answering (inCommand 0x90FF .start)
     s.busy = true ∧ s.run = false ∧ s.pos = .start ∧ decode s.cmd = .legal (.auto 0xFF) ∧
     Answering (1 + legStepsBound s.build) s) :=
  ⟨by decide, by decide, by decide, by decide,
    answering_meets _ (by rw [show (answering _).build = quickBlock from rfl, quick_legStepsBound]; decide)⟩

theorem witness_RunDispatchesUnits :
    (inRun .accept).pos = .accept ∧ (inRun .start).pos = .start ∧
    (inRun (.apply .seed 0xFF)).pos = .apply .seed 0xFF ∧ (inRun (.apply .seed 0xFF)).run = true ∧
    (inRun .poll).pos = .poll ∧ (inRun .unit).pos = .unit ∧ (inRun .unit).mode = false ∧
    ({ inRun .unit with mode := true } : State).pos = .unit ∧
    ({ inRun .unit with mode := true } : State).mode = true ∧
    (inRun (.apply .manual 0xFF)).pos = .apply .manual 0xFF ∧
    (inRun (.apply .manual 0xFF)).run = true := by decide

theorem witness_RunManualUnit :
    (let p := levels false 0 false
     let s := { inRun .poll with script := [p, p, answer, p] }
     s.busy = true ∧ s.run = true ∧ s.pos = .poll ∧ decode s.cmd = .legal .run ∧
     s.script = p :: p :: answer :: p :: [] ∧ NoReset 4 s ∧ p.modeSw ≠ s.build.modeAutoLevel ∧
     answer.smpAck = true) := by
  refine ⟨by decide, by decide, by decide, by decide, rfl, ⟨by decide, ?_⟩, by decide, rfl⟩
  decide

theorem witness_RunAutoUnit :
    (let s := answering (inRun .poll)
     s.busy = true ∧ s.run = true ∧ s.pos = .poll ∧ decode s.cmd = .legal .run ∧
     s.script = answer :: List.replicate 1532 answer ∧
     Answering (2 + legStepsBound s.build) s ∧ answer.modeSw = s.build.modeAutoLevel) :=
  ⟨by decide, by decide, by decide, by decide, rfl,
    answering_meets _ (by rw [show (answering _).build = quickBlock from rfl, quick_legStepsBound]),
    rfl⟩

/-! ### Frames -/

theorem witness_SingleStepCommandsFrame :
    goesOn (exec .nop (inCommand 0x0000 .accept)) = true ∧
    goesOn (exec (.scale 0xFF) (inCommand 0x10FF .start)) = true ∧
    goesOn (exec (.next 0) (inCommand 0x3000 .start)) = true ∧
    goesOn (exec (.setduty 0) (inCommand 0x6000 .start)) = true := by decide

theorem witness_SamplingCommandsFrame :
    goesOn (exec .seed (inCommand 0x2000 (.apply .seed 1))) = true ∧
    goesOn (exec .perturb (inCommand 0x4000 (.apply .perturb 1))) = true ∧
    goesOn (exec .delay (inCommand 0x7000 (.tick .command))) = true ∧
    goesOn (exec .manual (inCommand 0x5000 (.apply .manual 1))) = true := by decide

theorem witness_LegCommandsFrame :
    goesOn (exec (.ramp 0x65) downLeg) = true ∧ goesOn (exec (.auto 0) (inCommand 0x9000 .start)) = true ∧
    goesOn (exec .run (inRun .poll)) = true := by decide

end Sys2Proof.Tests
end

