-- ==== Sys2Proof/Proofs/Scope.lean ====
section
/-!
PROOF. Sys2Proof/Proofs/Scope.lean: what every step leaves unchanged and records: the build parameters (R6),
and one event at most (R8, R12).
-/

namespace Sys2Proof.Machine

/-! ## The composite operations, by their build and their events -/

@[simp] theorem applySeed_build_trace (v : Byte) (s : State) :
    (applySeed v s).build = s.build ∧ (applySeed v s).trace = s.trace := by simp [applySeed]

@[simp] theorem applyPerturb_build_trace (v : Byte) (s : State) :
    (applyPerturb v s).build = s.build ∧ (applyPerturb v s).trace = s.trace := by simp [applyPerturb]

@[simp] theorem applyManual_build_trace (v : Byte) (s : State) :
    (applyManual v s).build = s.build ∧
    (applyManual v s).trace = .dutyWrite (scale s.build.pwmMin v) :: s.trace := by simp [applyManual]

@[simp] theorem generate_build_trace (e : Byte) (s : State) :
    (generate e s).build = s.build ∧ (generate e s).trace = s.trace := by simp [generate]

@[simp] theorem resetCycle_build_trace (s : State) :
    (resetCycle s).build = s.build ∧ (resetCycle s).trace = s.trace := by simp [resetCycle]

@[simp] theorem illegalCycle_build_trace (w : Word) (s : State) :
    (illegalCycle w s).build = s.build ∧ (illegalCycle w s).trace = .cmdAccept w :: s.trace := by
  simp [illegalCycle]

@[simp] theorem idleCycle_build_trace (s : State) :
    (idleCycle s).build = s.build ∧ (idleCycle s).trace = s.trace := by simp [idleCycle]

/-! ## The micro-steps -/

/-- R6: no micro-step of a command writes a build parameter. -/
theorem micro_build {i : Instr} {s t : State} (h : Micro i s t) : t.build = s.build := by
  cases h <;> simp

/-- The record of `t` is that of `s` with at most one event added (R12). -/
def AddsAtMostOneEvent (s t : State) : Prop := t.trace = s.trace ∨ ∃ e, t.trace = e :: s.trace

/-- R12: the micro-steps that write the PWM port, latch a sample, tick or poll the mode switch emit that one
event; the others emit none. -/
theorem micro_addsAtMostOneEvent {i : Instr} {s t : State} (h : Micro i s t) : AddsAtMostOneEvent s t := by
  cases h with
  | @setduty v => exact .inr ⟨.dutyWrite v, by simp⟩
  | move => exact .inr ⟨.dutyWrite (moveOne s.dir s.duty), by simp⟩
  | @applyManual _ v => exact .inr ⟨.dutyWrite (scale s.build.pwmMin v), by simp⟩
  | answered => exact .inr ⟨.sampleRead (pinsOf s).smpData, by simp⟩
  | tickOn | tickEnd | tickEndLeg => exact .inr ⟨.tick, by simp⟩
  | poll => exact .inr ⟨.modePoll (pinsOf s).modeSw, by simp⟩
  | _ => exact .inl (by simp)

/-- The micro-step of acceptance adds no event of its own to the `CmdAccept` of R70. -/
theorem micro_accept_trace {i : Instr} {s t : State} (hp : s.pos = .accept) (h : Micro i s t) :
    t.trace = s.trace := by
  obtain ⟨-, rfl⟩ | ⟨-, rfl⟩ | ⟨-, -, rfl⟩ := micro_accept hp h <;> simp

/-! ## The step -/

/-- R6: no step changes a build parameter. -/
theorem step_build {s t : State} (h : step s = .next t) : t.build = s.build := by
  cases step_cases h with
  | reset _ ht | illegal _ _ _ _ _ ht | idle _ _ _ ht => simp [ht]
  | accept i u _ _ _ _ hm ht | inProgress i u _ _ _ hm ht => simp [ht, micro_build hm]

/-- R8: a step emits its acceptance, or what the micro-step of the command in progress emits, or nothing. -/
theorem step_addsAtMostOneEvent {s t : State} (h : step s = .next t) : AddsAtMostOneEvent s t := by
  cases step_cases h with
  | reset _ ht | idle _ _ _ ht => exact .inl (by simp [ht])
  | illegal _ _ _ _ _ ht => exact .inr ⟨.cmdAccept (pinsOf s).cmd, by simp [ht]⟩
  | accept i u _ _ _ _ hm ht =>
    have hu := micro_accept_trace (by simp) hm
    exact .inr ⟨.cmdAccept (pinsOf s).cmd, by simp [ht, hu]⟩
  | inProgress i u _ _ _ hm ht => simpa [AddsAtMostOneEvent, ht] using micro_addsAtMostOneEvent hm

/-- Settles O15: each kind of step keeps the build and adds at most one event. -/
theorem stepKeepsTheBuildAndEmitsAtMostOneEvent : Obligations.StepKeepsTheBuildAndEmitsAtMostOneEvent := by
  unfold Obligations.StepKeepsTheBuildAndEmitsAtMostOneEvent
  intro s t h
  exact ⟨step_build h, step_addsAtMostOneEvent h⟩

end Sys2Proof.Machine
end

