-- ==== Sys2Proof/Proofs/State.lean ====
section
/-!
PROOF. Sys2Proof/Proofs/State.lean: the statements of spec/10_state.md: the values after reset and STATUS (R28,
R34), the invariant of the machine (R24, R25, R31, R33, R134, R135), the writers of the data registers (R21,
R22), the floor of `duty` (R35), and the internal registers that no result depends on (R32).
-/

namespace Sys2Proof.Machine

/-! ## Reset, STATUS, and the command in progress -/

/-- Settles O13: `State.reset` is a literal, and `resetRegisters` says what reset does to the port. -/
theorem resetLeavesTheSpecsValues : Obligations.ResetLeavesTheSpecsValues := by
  unfold Obligations.ResetLeavesTheSpecsValues
  have strobe (s : State) : (resetRegisters s).pwmWe = false ∧ (resetRegisters s).pwmReg = s.pwmReg := by simp
  exact ⟨rfl, rfl, rfl, rfl, rfl, rfl, rfl, rfl, rfl, rfl, rfl, rfl, rfl, rfl, rfl, rfl, rfl, rfl, rfl, rfl,
    rfl, rfl, rfl, strobe⟩

/-- R28: the layout of STATUS. -/
theorem statusBits (busy run mode err : Bool) (b : Byte)
    (hb : b = 0#4 ++ bit err ++ bit mode ++ bit run ++ bit busy) :
    b.getLsbD 0 = busy ∧ b.getLsbD 1 = run ∧ b.getLsbD 2 = mode ∧ b.getLsbD 3 = err ∧
      b.extractLsb' 4 4 = 0 := by
  subst hb
  revert busy run mode err
  decide

/-- Settles O16, by the layout of STATUS. -/
theorem statusShowsItsFields : Obligations.StatusShowsItsFields := by
  unfold Obligations.StatusShowsItsFields
  intro s
  obtain ⟨hbusy, hrun, hmode, herr, hzero⟩ := statusBits s.busy s.run s.mode s.err (status s) rfl
  exact ⟨hbusy, hrun, hmode, herr, hzero, rfl⟩

theorem idleAndReady_iff (s : State) : idleAndReady s = true ↔ s.busy = false ∧ s.run = false := by
  simp [idleAndReady]

theorem not_idleAndReady_iff (s : State) : idleAndReady s = false ↔ s.busy = true ∨ s.run = true := by
  cases hb : s.busy <;> simp [idleAndReady, hb]

/-- R220: reset outranks everything. -/
theorem step_reset {s : State} (hr : (pinsOf s).rst = true) : step s = .next (resetCycle s) := by
  simp [step, cycle, hr]

/-- R70: a ready CORE accepts a legal word. -/
theorem step_accept {s : State} {i : Instr} (hr : (pinsOf s).rst = false) (hi : idleAndReady s = true)
    (hv : (pinsOf s).cmdValid = true) (hd : decode (pinsOf s).cmd = .legal i) :
    step s = afterCommand (exec i (acceptCommand (pinsOf s).cmd (quiet s))) := by
  simp [step, cycle, hr, hi, hv, hd]

/-- R201: a ready CORE accepts an illegal word. -/
theorem step_illegal {s : State} {why : Illegal} (hr : (pinsOf s).rst = false) (hi : idleAndReady s = true)
    (hv : (pinsOf s).cmdValid = true) (hd : decode (pinsOf s).cmd = .illegal why) :
    step s = .next (illegalCycle (pinsOf s).cmd s) := by
  simp [step, cycle, hr, hi, hv, hd]

/-- R221: a ready CORE waits. -/
theorem step_idle {s : State} (hr : (pinsOf s).rst = false) (hi : idleAndReady s = true)
    (hv : (pinsOf s).cmdValid = false) : step s = .next (idleCycle s) := by
  simp [step, cycle, hr, hi, hv]

/-- Log entry 9: the state that no run reaches. -/
theorem step_noCommand {s : State} {why : Illegal} (hr : (pinsOf s).rst = false) (hi : idleAndReady s = false)
    (hd : decode s.cmd = .illegal why) : step s = .fault .noCommandInProgress := by
  simp [step, cycle, hr, hi, hd]

/-- R31, R70: a CORE that is not ready performs the next micro-step of its command. -/
theorem step_inProgress {s : State} {i : Instr} (hr : (pinsOf s).rst = false) (hi : idleAndReady s = false)
    (hd : decode s.cmd = .legal i) : step s = afterCommand (exec i (quiet s)) := by
  simp [step, cycle, hr, hi, hd]

/-- Settles O8: a CORE with `busy` or `run` set is not ready. -/
theorem commandInProgressRunsOn : Obligations.CommandInProgressRunsOn := by
  unfold Obligations.CommandInProgressRunsOn
  intro s i hr hb hd
  exact ⟨step_inProgress hr ((not_idleAndReady_iff s).2 hb) hd, fun u => rfl⟩

/-! ## Which positions belong together -/

theorem belongs_idle (i : Instr) : belongs i .idle = false := by cases i <;> rfl

theorem belongs_accept (i : Instr) : belongs i .accept = false := by cases i <;> rfl

/-- The positions of a ramp leg (R131). -/
theorem inLeg_cases {p : Pos} (h : inLeg p = true) :
    p = .decide ∨ p = .wait ∨ p = .await (.wait .leg) ∨ (∃ v, p = .apply (.wait .leg) v) ∨
      p = .tick .leg ∨ p = .count := by
  unfold inLeg at h
  split at h <;> simp_all

/-- A command that owns one position of a ramp leg owns them all (R131). -/
theorem belongs_of_inLeg {i : Instr} {p q : Pos} (h : belongs i p = true) (hp : inLeg p = true)
    (hq : inLeg q = true) : belongs i q = true := by
  have own : ∀ r, inLeg r = true → belongs i r = belongs i .decide := by
    intro r hr
    obtain rfl | rfl | rfl | ⟨v, rfl⟩ | rfl | rfl := inLeg_cases hr <;> cases i <;> rfl
  rw [own q hq, ← own p hp, h]

/-- A command with a target on the way runs a ramp leg to it (R172). -/
theorem belongs_decide_of_legStart {i : Instr} {t : Byte} (h : belongs i (.legStart t) = true) :
    belongs i .decide = true := by
  revert h
  cases i <;> simp [belongs, reading, inLeg]

/-- The statement after a read belongs to the command that made it (R52). -/
theorem belongs_apply (i : Instr) (u : SampleUse) (v : Byte) :
    belongs i (.apply u v) = belongs i (.await u) := by
  cases i <;> rcases u with _ | _ | _ | _ | _ <;> rfl

/-- The first tick of a wait belongs to the command that armed it (R150). -/
theorem belongs_tick (i : Instr) (w : WaitOf) (v : Byte) :
    belongs i (.tick w) = belongs i (.apply (.wait w) v) := by
  cases i <;> cases w <;> rfl

theorem inLeg_tick (w : WaitOf) (v : Byte) : inLeg (.tick w) = inLeg (.apply (.wait w) v) := by
  cases w <;> rfl

theorem inLeg_apply (u : SampleUse) (v : Byte) : inLeg (.apply u v) = inLeg (.await u) := by
  rcases u with _ | _ | _ | _ | _ <;> rfl

/-- The commands of R139, R172 and R173 that run ramp legs. -/
theorem leg_command {i : Instr} (h : belongs i .decide = true) :
    (∃ t, i = .ramp t) ∨ (∃ e, i = .auto e) ∨ i = .run := by
  cases i <;> simp_all [belongs, reading]

/-- Where a command or a unit ends, no leg is in progress (R131). -/
@[simp] theorem inLeg_completed (run : Bool) : inLeg (if run = true then .poll else .idle) = false := by
  cases run <;> rfl

/-- Where a command or a unit ends, no countdown is in progress (R155). -/
@[simp] theorem inCountdown_completed (run : Bool) :
    inCountdown (if run = true then .poll else .idle) = false := by
  cases run <;> rfl

/-- Where a command or a unit ends, no target is on the way to a leg (R172). -/
@[simp] theorem completed_ne_legStart (run : Bool) (t : Byte) :
    (if run = true then Pos.poll else .idle) ≠ .legStart t := by
  cases run <;> simp

/-! ## AUTO's first micro-step -/

@[simp] theorem generate_sequencer (e : Byte) (s : State) :
    (generate e s).pos = .legStart (targetOf s.build.pwmMin (lcg s.rng e)) ∧
    (generate e s).busy = s.busy ∧ (generate e s).run = s.run ∧ (generate e s).cmd = s.cmd ∧
    (generate e s).smpReq = s.smpReq := by
  simp [generate]

/-- R172: the target on the way to the leg is the one in `res`. -/
theorem generate_legStart_res {e t : Byte} {s : State} (h : (generate e s).pos = .legStart t) :
    t = (generate e s).res := by
  cases h
  rfl

/-! ## Ready, or a command in progress -/

/-- A CORE that is ready for a command (R34, R70). -/
structure Ready (s : State) : Prop where
  busy : s.busy = false
  run : s.run = false
  pos : s.pos = .idle
  smpReq : s.smpReq = false

/-- A CORE with the command `i` in progress, at a position of its own (R21, R31). -/
structure InProgress (i : Instr) (s : State) : Prop where
  busy : s.busy = true
  decoded : decode s.cmd = .legal i
  own : belongs i s.pos = true
  run_iff : s.run = true ↔ i = .run
  smpReq_iff : s.smpReq = true ↔ inTransaction s.pos = true
  legStart_res : ∀ t, s.pos = .legStart t → t = s.res

/-- R201: an illegal word leaves the CORE ready. -/
theorem Ready.illegalCycle {s : State} {w : Word} (h : Ready s) : Ready (illegalCycle w s) := by
  obtain ⟨hbusy, hrun, hpos, hreq⟩ := h
  constructor <;> simpa [Machine.illegalCycle]

/-- R170: an accepted NOP leaves the CORE ready. -/
theorem Ready.complete_acceptCommand {s : State} {w : Word} (h : Ready s) :
    Ready (complete (acceptCommand w s)) :=
  ⟨by simp [h.run], h.run, by simp [h.run], h.smpReq⟩

theorem Ready.sequencerInv {s : State} (h : Ready s) : SequencerInv s where
  idle_iff := by simp [h.pos, h.busy]
  not_accept := by simp [h.pos]
  run_busy := by simp [h.run]
  smpReq_iff := by simp [h.smpReq, h.pos, inTransaction]
  legStart_res := by simp [h.pos]
  command := by simp [BusyHoldsACommand, h.busy]

theorem InProgress.pos_ne {i : Instr} {s : State} (h : InProgress i s) :
    s.pos ≠ .idle ∧ s.pos ≠ .accept := by
  constructor <;> intro hp
  · simpa [hp, belongs_idle] using h.own
  · simpa [hp, belongs_accept] using h.own

theorem InProgress.sequencerInv {i : Instr} {s : State} (h : InProgress i s) : SequencerInv s where
  idle_iff := by simp [h.pos_ne, h.busy]
  not_accept := h.pos_ne.2
  run_busy := fun _ => h.busy
  smpReq_iff := h.smpReq_iff
  legStart_res := h.legStart_res
  command := fun _ => ⟨i, h.decoded, h.own, h.run_iff⟩

theorem SequencerInv.ready {s : State} (h : SequencerInv s) (hb : s.busy = false) : Ready s where
  busy := hb
  run := by simpa [hb] using h.run_busy
  pos := h.idle_iff.2 hb
  smpReq := by simpa [h.idle_iff.2 hb, inTransaction] using h.smpReq_iff

theorem SequencerInv.inProgress {s : State} {i : Instr} (h : SequencerInv s) (hb : s.busy = true)
    (hd : decode s.cmd = .legal i) : InProgress i s := by
  obtain ⟨j, hj, own, run_iff⟩ := h.command hb
  obtain rfl : i = j := by simpa [hd] using hj
  exact ⟨hb, hd, own, run_iff, h.smpReq_iff, h.legStart_res⟩

theorem InProgress.smpReq_false {i : Instr} {s : State} (h : InProgress i s)
    (hp : inTransaction s.pos = false) : s.smpReq = false := by
  simpa [hp] using h.smpReq_iff

/-- What the sequencer's consistency speaks of beside the position and the target in `res`. -/
def commandRegisters (s : State) : Bool × Bool × Word × Bool := (s.busy, s.run, s.cmd, s.smpReq)

/-- A micro-step outside the transactions that goes on at a position of the command's own (R31). -/
theorem InProgress.goesOn_sequencerInv {i : Instr} {s t : State} (h : InProgress i s)
    (he : commandRegisters t = commandRegisters s) (own : belongs i t.pos = true)
    (hs : inTransaction s.pos = false) (ht : inTransaction t.pos = false)
    (hl : ∀ x, t.pos ≠ .legStart x) : SequencerInv t := by
  simp only [commandRegisters, Prod.mk.injEq] at he
  obtain ⟨hbusy, hrun, hcmd, hreq⟩ := he
  exact InProgress.sequencerInv (i := i)
    ⟨hbusy ▸ h.busy, hcmd ▸ h.decoded, own, hrun ▸ h.run_iff, by simp [hreq, h.smpReq_false hs, ht],
      fun x hx => absurd hx (hl x)⟩

/-- A micro-step that opens a transaction for the command (R33, R52). -/
theorem InProgress.request_sequencerInv {i : Instr} {u : SampleUse} {s : State} (h : InProgress i s)
    (own : belongs i (.await u) = true) : SequencerInv (request u s) :=
  InProgress.sequencerInv { h with own := own, smpReq_iff := by simp [inTransaction], legStart_res := by simp }

/-- The end of a command leaves the CORE ready, and inside RUN at its next poll (R70, R173). -/
theorem complete_sequencerInv {i : Instr} {s : State} (hd : decode s.cmd = .legal i)
    (hb : s.busy = true) (hr : s.run = true ↔ i = .run) (hq : s.smpReq = false) :
    SequencerInv (complete s) := by
  cases h : s.run with
  | false => exact Ready.sequencerInv ⟨by simp [h], h, by simp [h], hq⟩
  | true =>
    obtain rfl := hr.1 h
    exact InProgress.sequencerInv (i := .run)
      ⟨by simp [h, hb], hd, by simp [h, belongs], hr, by simp [h, hq, inTransaction], by simp [h]⟩

/-- AUTO's first micro-step leads to the leg with its target in `res` (R172). -/
theorem generate_sequencerInv {i : Instr} {e : Byte} {s : State} (h : InProgress i s)
    (hi : ∀ t, belongs i (.legStart t) = true) (hp : inTransaction s.pos = false) :
    SequencerInv (generate e s) :=
  InProgress.sequencerInv (i := i) {
    busy := by simp [h.busy]
    decoded := by simp [h.decoded]
    own := by simp [hi]
    run_iff := by simp [h.run_iff]
    smpReq_iff := by simp [inTransaction, h.smpReq_false hp]
    legStart_res := fun _ => generate_legStart_res }

/-- Every micro-step of a command in progress keeps the sequencer consistent (R31, R33, R172). -/
theorem micro_sequencerInv {i : Instr} {s t : State} (h : InProgress i s) (hm : Micro i s t) :
    SequencerInv t := by
  cases hm with
  | enter hp | enterRun hp => exact absurd hp h.pos_ne.2
  | nop => simpa [belongs] using h.own
  | nothing hn => simpa [hn] using h.own
  | scale | next | setduty =>
    have hp : s.pos = .start := by simpa [belongs] using h.own
    exact complete_sequencerInv h.decoded h.busy h.run_iff (h.smpReq_false (by simp [hp, inTransaction]))
  | legEnd hp | applySeed hp | applyPerturb hp | applyManual hp | tickEnd hp =>
    exact complete_sequencerInv h.decoded h.busy h.run_iff (h.smpReq_false (by simp [hp, inTransaction]))
  | requestSeed _ hi => exact h.request_sequencerInv (by obtain rfl | rfl := hi <;> rfl)
  | requestPerturb | requestManual | requestDelay | unitManual => exact h.request_sequencerInv rfl
  | requestLeg _ hi => exact h.request_sequencerInv (belongs_of_inLeg hi rfl rfl)
  | unitAuto hp | generate hp =>
    exact generate_sequencerInv h (fun _ => rfl) (by simp [hp, inTransaction])
  | rampSetup hp | poll hp =>
    exact h.goesOn_sequencerInv rfl rfl (by simp [hp, inTransaction]) rfl (by simp)
  | legSetup hp hi =>
    exact h.goesOn_sequencerInv rfl (belongs_decide_of_legStart hi) (by simp [hp, inTransaction]) rfl (by simp)
  | move hp | stay hp | countOn hp | tickEndLeg hp =>
    exact h.goesOn_sequencerInv rfl (belongs_of_inLeg h.own (by rw [hp]; rfl) rfl)
      (by simp [hp, inTransaction]) rfl (by simp)
  | arm hp =>
    exact h.goesOn_sequencerInv rfl ((belongs_tick ..).trans (hp ▸ h.own))
      (by simp [hp, inTransaction]) rfl (by simp)
  | answered hp =>
    exact InProgress.sequencerInv { h with
      own := (belongs_apply ..).trans (hp ▸ h.own)
      smpReq_iff := by simp [inTransaction]
      legStart_res := by simp }
  | unanswered hp => exact InProgress.sequencerInv { h with smpReq_iff := by simp [hp, inTransaction] }
  | tickOn => exact InProgress.sequencerInv { h with }

/-! ## The leg -/

/-- The registers that the balance of a leg speaks of. -/
def legRegisters (s : State) : Byte × Byte × BitVec 16 × Bool × BitVec 10 × BitVec 8 :=
  (s.duty, s.tgt, s.acc, s.dir, s.mag, s.stepsLeft)

theorem decisionsLeft_at_decide {s : State} (hp : s.pos = .decide) : decisionsLeft s = s.stepsLeft.toNat :=
  if_pos hp

theorem decisionsLeft_after_decide {s : State} (hp : s.pos ≠ .decide) :
    decisionsLeft s = (s.stepsLeft.toNat : Int) - 1 :=
  if_neg hp

/-- Between two decisions of a leg nothing of its balance changes. -/
theorem LegInv.of_legRegisters {s t : State} (h : LegInv s) (he : legRegisters t = legRegisters s)
    (hs : s.pos ≠ .decide) (ht : t.pos ≠ .decide) : LegInv t := by
  simp only [legRegisters, Prod.mk.injEq] at he
  obtain ⟨hduty, htgt, hacc, hdir, hmag, hsteps⟩ := he
  have hd : distanceLeft t = distanceLeft s := by simp only [distanceLeft, hduty, htgt, hdir]
  have hk : decisionsLeft t = decisionsLeft s := by
    rw [decisionsLeft_after_decide hs, decisionsLeft_after_decide ht, hsteps]
  exact ⟨hsteps ▸ h.steps_pos, hacc ▸ h.acc_low, hacc ▸ h.acc_high, hd ▸ h.not_passed, by
    rw [hacc, hmag, hd, hk, h.balance]⟩

theorem legMag_toNat (c t : Byte) : (legMag c t).toNat = 2 * (legDelta c t).natAbs := by
  have := c.isLt
  have := t.isLt
  simp only [legMag, legDelta, BitVec.toNat_ofNat]
  omega

/-- R131: a leg goes down exactly when its target is below `duty`. -/
theorem legDir_iff (c t : Byte) : legDir c t = true ↔ t.toNat < c.toNat := by
  simp [legDir, legDelta]

/-- R131: the distance of a leg just set up. -/
theorem distanceLeft_legSetup (t : Byte) (s : State) :
    distanceLeft (legSetup t s) = (legDelta s.duty t).natAbs := by
  simp only [distanceLeft, legSetup_fields, legDir_iff, legDelta]
  split <;> omega

/-- R131: the leg starts in balance, with 255 decisions to come. -/
theorem legSetup_legInv (t : Byte) (s : State) : LegInv (legSetup t s) where
  steps_pos := by simp
  acc_low := by simp
  acc_high := by simp
  not_passed := by rw [distanceLeft_legSetup]; omega
  balance := by
    rw [distanceLeft_legSetup, decisionsLeft_at_decide rfl]
    have hacc : (legSetup t s).acc.toInt = -255 := by simp
    have hsteps : (legSetup t s).stepsLeft.toNat = 255 := by simp
    have hmag : (legSetup t s).mag.toNat = 2 * (legDelta s.duty t).natAbs := legMag_toNat s.duty t
    rw [hacc, hsteps, hmag]
    omega

/-- R134: the sum that a decision step tests. -/
theorem LegInv.accSum_toInt {s : State} (h : LegInv s) (hr : RangesInv s) :
    (accSum s).toInt = s.acc.toInt + s.mag.toNat :=
  Machine.accSum_toInt h.acc_low (by have := h.acc_high; omega) hr.mag_high

/-- R135: a leg that moves has not reached its target. -/
theorem LegInv.distance_pos {s : State} (h : LegInv s) (hr : RangesInv s) (hp : s.pos = .decide)
    (hm : legMoves s = true) : 1 ≤ distanceLeft s := by
  have hsum := (legMoves_iff s).1 hm
  rw [h.accSum_toInt hr] at hsum
  have hsteps := h.steps_pos
  have hbal := h.balance
  rw [decisionsLeft_at_decide hp] at hbal
  have hmul : (s.mag.toNat : Int) * 1 ≤ s.mag.toNat * s.stepsLeft.toNat :=
    mul_le_mul_of_nonneg_left (by omega) (by omega)
  omega

/-- R135: a move that has not reached the target brings `duty` one unit nearer and does not wrap. -/
theorem moveOne_toNat {s : State} (h : 1 ≤ distanceLeft s) :
    ((moveOne s.dir s.duty).toNat : Int) = if s.dir then (s.duty.toNat : Int) - 1 else s.duty.toNat + 1 := by
  have := s.duty.isLt
  have := s.tgt.isLt
  unfold distanceLeft at h
  unfold moveOne
  cases hd : s.dir with
  | true =>
    rw [hd, if_pos rfl] at h
    rw [if_pos rfl, if_pos rfl]
    bv_omega
  | false =>
    rw [hd, if_neg (by simp)] at h
    rw [if_neg (by simp), if_neg (by simp)]
    bv_omega

/-- R134, R135: a move takes 510 from `acc` and one unit from the distance. -/
theorem move_legInv {s : State} (h : LegInv s) (hr : RangesInv s) (hp : s.pos = .decide)
    (hm : legMoves s = true) :
    LegInv (setDuty (moveOne s.dir s.duty) { s with acc := accSum s - 510, pos := .wait }) := by
  have hsum := h.accSum_toInt hr
  have hpos := (legMoves_iff s).1 hm
  have hd := h.distance_pos hr hp hm
  have hduty := moveOne_toNat hd
  have := h.acc_high
  have := hr.mag_high
  have hbal := h.balance
  rw [decisionsLeft_at_decide hp] at hbal
  have hacc : (accSum s - 510).toInt = s.acc.toInt + s.mag.toNat - 510 := by
    rw [BitVec.toInt_sub, hsum, show (510 : BitVec 16).toInt = 510 from rfl, Int.bmod_eq_of_le] <;> omega
  have hdist : distanceLeft (setDuty (moveOne s.dir s.duty) { s with acc := accSum s - 510, pos := .wait }) =
      distanceLeft s - 1 := by
    simp only [distanceLeft, setDuty_fields, hduty]
    split <;> omega
  exact {
    steps_pos := h.steps_pos
    acc_low := by simp only [setDuty_fields, hacc]; omega
    acc_high := by simp only [setDuty_fields, hacc]; omega
    not_passed := by rw [hdist]; omega
    balance := by
      rw [hdist, decisionsLeft_after_decide (by simp)]
      simp only [setDuty_fields, hacc]
      linarith }

/-- R134: a decision step that does not move adds `mag` to `acc` alone. -/
theorem stay_legInv {s : State} (h : LegInv s) (hr : RangesInv s) (hp : s.pos = .decide)
    (hm : legMoves s = false) : LegInv { s with acc := accSum s, pos := .wait } := by
  have hsum := h.accSum_toInt hr
  have hneg : ¬ 0 ≤ (accSum s).toInt := by simp [← legMoves_iff, hm]
  have hbal := h.balance
  rw [decisionsLeft_at_decide hp] at hbal
  exact {
    steps_pos := h.steps_pos
    acc_low := by have := h.acc_low; simp only [hsum]; omega
    acc_high := by show (accSum s).toInt ≤ -1; omega
    not_passed := h.not_passed
    balance := by
      rw [decisionsLeft_after_decide (by simp)]
      simp only [hsum]
      exact Eq.trans (by ring) hbal }

/-- R131: the count changes nothing of the balance. -/
theorem countOn_legInv {s : State} (h : LegInv s) (hp : s.pos = .count) (hl : s.stepsLeft ≠ 1) :
    LegInv { s with stepsLeft := s.stepsLeft - 1, pos := .decide } := by
  have hsteps : (s.stepsLeft - 1).toNat = s.stepsLeft.toNat - 1 ∧ 2 ≤ s.stepsLeft.toNat := by
    have := h.steps_pos
    constructor <;> bv_omega
  obtain ⟨hsub, htwo⟩ := hsteps
  have hbal := h.balance
  rw [decisionsLeft_after_decide (by simp [hp])] at hbal
  exact { h with
    steps_pos := by simp only [hsub]; omega
    balance := by
      rw [decisionsLeft_at_decide rfl]
      simp only [hsub]
      rwa [Nat.cast_sub (by omega), Nat.cast_one] }

/-- R134, R135: every micro-step of a command keeps the balance of a leg, from its set-up to its end. -/
theorem micro_legInv {i : Instr} {s t : State} (hl : inLeg s.pos = true → LegInv s) (hr : RangesInv s)
    (hm : Micro i s t) (ht : inLeg t.pos = true) : LegInv t := by
  cases hm with
  | nothing => exact hl ht
  | rampSetup | legSetup => exact legSetup_legInv _ s
  | move hp _ hmove => exact move_legInv (hl (by rw [hp]; rfl)) hr hp hmove
  | stay hp _ hstay => exact stay_legInv (hl (by rw [hp]; rfl)) hr hp hstay
  | countOn hp _ hsteps => exact countOn_legInv (hl (by rw [hp]; rfl)) hp hsteps
  | requestLeg hp | tickEndLeg hp =>
    exact (hl (by rw [hp]; rfl)).of_legRegisters rfl (by simp [hp]) (by simp)
  | unanswered hp | tickOn hp => exact (hl ht).of_legRegisters rfl (by simp [hp]) (by simp [hp])
  | answered hp =>
    have hs : inLeg s.pos = true := by rw [hp, ← inLeg_apply]; exact ht
    exact (hl hs).of_legRegisters rfl (by simp [hp]) (by simp)
  | arm hp =>
    have hs : inLeg s.pos = true := by rw [hp, ← inLeg_tick]; exact ht
    exact (hl hs).of_legRegisters rfl (by simp [hp]) (by simp)
  | nop | scale | next | setduty | legEnd | tickEnd | applySeed | applyPerturb | applyManual =>
    exact absurd ht (by simp [applySeed, applyPerturb, applyManual])
  | enter | enterRun | requestSeed | requestPerturb | requestManual | requestDelay | unitManual | unitAuto
  | generate | poll =>
    exact absurd ht (by simp [inLeg])

/-! ## The countdown -/

/-- R150: the countdown starts at the budget, with the sum of R158 as its decrement. -/
theorem armWait_countdownInv (w : WaitOf) (v : Byte) (s : State) : CountdownInv (armWait w v s) where
  units_low := by simp only [armWait_fields, delayUnits_toNat]; omega
  units_high := by have := v.isLt; simp only [armWait_fields, delayUnits_toNat]; omega
  cnt_low := by simp only [armWait_fields, budget_toInt]; omega
  cnt_high := by simp only [armWait_fields, budget_toInt]; omega

/-- R151: the difference that a tick tests. -/
theorem RangesInv.dlyNext_toInt {s : State} (h : RangesInv s) :
    (dlyNext s).toInt = s.dlyCnt.toInt - s.dlyUnits.toNat :=
  Machine.dlyNext_toInt h.cnt_low (by have := h.cnt_high; have := s.build.delayBudget.isLt; omega) h.units_high

/-- R152: a tick that does not end the wait leaves the countdown in its range. -/
theorem tickOn_countdownInv {s : State} (h : CountdownInv s) (hr : RangesInv s) (hw : waitEnds s = false) :
    CountdownInv (emit .tick { s with dlyCnt := dlyNext s }) := by
  have hnext := hr.dlyNext_toInt
  have hneg : ¬ (dlyNext s).toInt < 0 := by simp [← waitEnds_iff, hw]
  have := h.cnt_high
  exact { h with
    cnt_low := by simp only [emit_fields]; omega
    cnt_high := by simp only [emit_fields]; omega }

/-- R152: every micro-step of a command keeps the countdown in its range. -/
theorem micro_countdownInv {i : Instr} {s t : State} (hc : inCountdown s.pos = true → CountdownInv s)
    (hr : RangesInv s) (hm : Micro i s t) (ht : inCountdown t.pos = true) : CountdownInv t := by
  cases hm with
  | nothing => exact hc ht
  | arm => exact armWait_countdownInv _ _ s
  | tickOn hp _ hw => exact tickOn_countdownInv (hc ht) hr hw
  | unanswered hp => exact absurd ht (by simp [hp, inCountdown])
  | nop | scale | next | setduty | legEnd | tickEnd | applySeed | applyPerturb | applyManual =>
    exact absurd ht (by simp [applySeed, applyPerturb, applyManual])
  | _ => exact absurd ht (by simp [inCountdown])

/-! ## The ranges of the internal registers -/

/-- What the ranges of R24 and R25 speak of. -/
def rangeRegisters (s : State) : BitVec 16 × BitVec 10 × BitVec 9 × BitVec 16 × Build :=
  (s.acc, s.mag, s.dlyUnits, s.dlyCnt, s.build)

theorem RangesInv.of_rangeRegisters {s t : State} (h : RangesInv s) (he : rangeRegisters t = rangeRegisters s) :
    RangesInv t := by
  simp only [rangeRegisters, Prod.mk.injEq] at he
  obtain ⟨hacc, hmag, hunits, hcnt, hbuild⟩ := he
  exact ⟨hacc ▸ h.acc_low, hacc ▸ h.acc_high, hmag ▸ h.mag_high, hunits ▸ h.units_high, hcnt ▸ h.cnt_low, by
    rw [hcnt, hbuild]; exact h.cnt_high⟩

/-- A leg's set-up keeps the ranges of R24. -/
theorem legSetup_rangesInv {t : Byte} {s : State} (h : RangesInv s) : RangesInv (legSetup t s) :=
  { h with
    acc_low := (legSetup_legInv t s).acc_low
    acc_high := by have := (legSetup_legInv t s).acc_high; omega
    mag_high := by
      have := s.duty.isLt
      have := t.isLt
      simp only [legSetup_fields, legMag_toNat, legDelta]
      omega }

/-- In a leg the ranges of R24 follow from R134. -/
theorem LegInv.rangesInv {s t : State} (h : LegInv t) (hr : RangesInv s) (hmag : t.mag = s.mag)
    (hunits : t.dlyUnits = s.dlyUnits) (hcnt : t.dlyCnt = s.dlyCnt) (hb : t.build = s.build) : RangesInv t where
  acc_low := h.acc_low
  acc_high := by have := h.acc_high; omega
  mag_high := hmag ▸ hr.mag_high
  units_high := hunits ▸ hr.units_high
  cnt_low := hcnt ▸ hr.cnt_low
  cnt_high := by rw [hcnt, hb]; exact hr.cnt_high

/-- A wait's arming keeps the ranges of R25. -/
theorem armWait_rangesInv {w : WaitOf} {v : Byte} {s : State} (h : RangesInv s) : RangesInv (armWait w v s) :=
  { h with
    units_high := by
      have := (armWait_countdownInv w v s).units_high
      have := s.build.delayOffset.isLt
      simp only [armWait_fields] at *
      omega
    cnt_low := by have := (armWait_countdownInv w v s).cnt_low; omega
    cnt_high := (armWait_countdownInv w v s).cnt_high }

/-- A tick, the last one too, keeps the ranges of R25. -/
theorem tick_rangesInv {s : State} (h : RangesInv s) (hc : CountdownInv s) :
    RangesInv { s with dlyCnt := dlyNext s } := by
  have hnext := h.dlyNext_toInt
  have := hc.cnt_low
  have := h.cnt_high
  have := h.units_high
  exact { h with
    cnt_low := by simp only [hnext]; omega
    cnt_high := by simp only [hnext]; omega }

/-- R24, R25: every micro-step of a command keeps the ranges of the internal registers. -/
theorem micro_rangesInv {i : Instr} {s t : State} (hl : inLeg s.pos = true → LegInv s)
    (hc : inCountdown s.pos = true → CountdownInv s) (hr : RangesInv s) (hm : Micro i s t) : RangesInv t := by
  have ht := micro_legInv hl hr hm
  cases hm with
  | rampSetup | legSetup => exact legSetup_rangesInv hr
  | move | stay => exact (ht rfl).rangesInv hr rfl rfl rfl rfl
  | arm => exact armWait_rangesInv hr
  | tickOn hp | tickEnd hp | tickEndLeg hp =>
    exact { tick_rangesInv hr (hc (by rw [hp]; rfl)) with }
  | _ =>
    exact hr.of_rangeRegisters (by simp [rangeRegisters, applySeed, applyPerturb, applyManual, Machine.generate])

/-! ## The invariant -/

/-- With no command in progress the invariant is about the ranges alone. -/
theorem Ready.inv {s : State} (h : Ready s) (hr : RangesInv s) : Inv s where
  sequencer := h.sequencerInv
  leg := by simp [h.pos, inLeg]
  countdown := by simp [h.pos, inCountdown]
  ranges := hr

/-- R34, R220: reset, at any moment, leads to the invariant. -/
theorem resetRegisters_inv (s : State) : Inv (resetRegisters s) :=
  Ready.inv ⟨rfl, rfl, rfl, rfl⟩ ⟨by simp, by simp, by simp, by simp, by simp, by simp⟩

theorem Inv.quiet {s : State} (h : Inv s) : Inv (quiet s) :=
  { sequencer := { h.sequencer with }
    leg := fun hp => { h.leg hp with }
    countdown := fun hp => { h.countdown hp with }
    ranges := { h.ranges with } }

theorem Inv.advance {s : State} (h : Inv s) : Inv (advance s) :=
  { sequencer := { h.sequencer with }
    leg := fun hp => { h.leg hp with }
    countdown := fun hp => { h.countdown hp with }
    ranges := { h.ranges with } }

/-- Every micro-step of the command in progress keeps the invariant. -/
theorem micro_inv {i : Instr} {s t : State} (h : Inv s) (hi : InProgress i s) (hm : Micro i s t) : Inv t where
  sequencer := micro_sequencerInv hi hm
  leg := micro_legInv h.leg h.ranges hm
  countdown := micro_countdownInv h.countdown h.ranges hm
  ranges := micro_rangesInv h.leg h.countdown h.ranges hm

theorem Inv.ready {s : State} (h : Inv s) (hi : idleAndReady s = true) : Ready s :=
  h.sequencer.ready ((idleAndReady_iff s).1 hi).1

/-- R28: a CORE that is not ready is busy, inside RUN too. -/
theorem Inv.busy {s : State} (h : Inv s) (hi : idleAndReady s = false) : s.busy = true :=
  ((not_idleAndReady_iff s).1 hi).elim id h.sequencer.run_busy

theorem Inv.inProgress {s : State} {i : Instr} (h : Inv s) (hi : idleAndReady s = false)
    (hd : decode s.cmd = .legal i) : InProgress i s :=
  h.sequencer.inProgress (h.busy hi) hd

/-- Every command but NOP has a first micro-step (R170). -/
theorem belongs_start {i : Instr} (h : i ≠ .nop) : belongs i .start = true := by
  cases i <;> simp_all [belongs]

/-- A command about to take its first micro-step is in no leg and no countdown. -/
theorem InProgress.inv_of_start {i : Instr} {s : State} (h : InProgress i s) (hp : s.pos = .start)
    (hr : RangesInv s) : Inv s where
  sequencer := h.sequencerInv
  leg := by simp [hp, inLeg]
  countdown := by simp [hp, inCountdown]
  ranges := hr

/-- R70: an accepted command is in progress at its first micro-step, except NOP, which has ended. -/
theorem accept_inv {i : Instr} {s t : State} {w : Word} (h : Inv s) (hi : idleAndReady s = true)
    (hd : decode w = .legal i) (hm : Micro i (acceptCommand w s) t) : Inv t := by
  have hs := h.ready hi
  have ⟨_, hrun, _, hreq⟩ := hs
  have hr : RangesInv t :=
    micro_rangesInv (s := acceptCommand w s) (by simp [inLeg]) (by simp [inCountdown]) { h.ranges with } hm
  obtain ⟨rfl, rfl⟩ | ⟨rfl, rfl⟩ | ⟨hn, hne, rfl⟩ := micro_accept rfl hm
  · exact hs.complete_acceptCommand.inv hr
  · exact InProgress.inv_of_start (i := .run)
      ⟨rfl, hd, rfl, by simp, by simp [hreq, inTransaction], by simp⟩ rfl hr
  · exact InProgress.inv_of_start (i := i)
      ⟨rfl, hd, belongs_start hn, by simp [hrun, hne], by simp [hreq, inTransaction], by simp⟩ rfl hr

/-- Settles O17: `State.reset` is what reset makes of it. -/
theorem invariantHoldsAtReset : Obligations.InvariantHoldsAtReset := by
  unfold Obligations.InvariantHoldsAtReset
  exact resetRegisters_inv State.reset

/-- Settles O18: each kind of step keeps the invariant. -/
theorem everyStepKeepsTheInvariant : Obligations.EveryStepKeepsTheInvariant := by
  unfold Obligations.EveryStepKeepsTheInvariant
  intro s t h hst
  cases step_cases hst with
  | reset _ ht => exact ht ▸ (resetRegisters_inv s).advance
  | accept i u _ hi _ hd hm ht => exact ht ▸ (accept_inv h.quiet hi hd hm).advance
  | illegal _ _ hi _ _ ht =>
    exact ht ▸ (h.ready hi).illegalCycle.inv (h.ranges.of_rangeRegisters (by simp [rangeRegisters, illegalCycle]))
  | idle _ _ _ ht => exact ht ▸ h.quiet.advance
  | inProgress i u _ hi hd hm ht => exact ht ▸ (micro_inv h.quiet (h.quiet.inProgress hi hd) hm).advance

/-! ## The floor of `duty` -/

/-- R100: the scaler's value does not wrap. -/
theorem scale_toNat (m x : Byte) :
    (scale m x).toNat = (x.toNat * (255 - m.toNat) + 127) / 255 + m.toNat := by
  have hx := x.isLt
  have hm := m.isLt
  have hmul : x.toNat * (255 - m.toNat) ≤ 255 * (255 - m.toNat) := Nat.mul_le_mul_right _ (by omega)
  simp only [scale, BitVec.toNat_ofNat]
  omega

/-- R101: the scaler's value is at least `PWM_MIN`. -/
theorem pwmMin_le_scale (m x : Byte) : m.toNat ≤ (scale m x).toNat := by
  rw [scale_toNat]
  omega

/-- R35: with no command in progress the floor is about `duty` alone. -/
theorem Ready.dutyFloor {s : State} (h : Ready s) (hd : s.build.pwmMin.toNat ≤ s.duty.toNat) :
    DutyFloor s where
  duty_floor := hd
  target_floor := by simp [h.pos, inLeg]
  legStart_floor := by simp [h.pos]
  setduty_floor := by simp [h.busy]
  ramp_floor := by simp [h.busy]

/-- R35, R135: a move toward a target above the floor stays above it. -/
theorem moveOne_floor {s : State} {m : Nat} (hd : 1 ≤ distanceLeft s) (hduty : m ≤ s.duty.toNat)
    (htgt : m ≤ s.tgt.toNat) : m ≤ (moveOne s.dir s.duty).toNat := by
  have hmove := moveOne_toNat hd
  unfold distanceLeft at hd
  split at hmove <;> simp_all <;> omega

/-- R35: a micro-step of the command in progress writes no `duty` below the floor. -/
theorem micro_duty_floor {i : Instr} {s t : State} (h : Inv s) (hf : DutyFloor s) (hi : InProgress i s)
    (hm : Micro i s t) : s.build.pwmMin.toNat ≤ t.duty.toNat := by
  cases hm with
  | setduty => simpa using hf.setduty_floor hi.busy _ hi.decoded
  | move hp _ hmove =>
    have hl : inLeg s.pos = true := by rw [hp]; rfl
    simpa using moveOne_floor ((h.leg hl).distance_pos h.ranges hp hmove) hf.duty_floor (hf.target_floor hl)
  | applyManual => simpa [applyManual] using pwmMin_le_scale _ _
  | _ => simpa [applySeed, applyPerturb, generate] using hf.duty_floor

/-- R35: in a leg, from its set-up on, the target is at least the floor. -/
theorem micro_target_floor {i : Instr} {s t : State} (hf : DutyFloor s) (hi : InProgress i s)
    (hm : Micro i s t) (ht : inLeg t.pos = true) : s.build.pwmMin.toNat ≤ t.tgt.toNat := by
  cases hm with
  | rampSetup => simpa using hf.ramp_floor hi.busy _ hi.decoded
  | legSetup hp => simpa using hf.legStart_floor _ hp
  | nothing => exact hf.target_floor ht
  | move hp | stay hp | countOn hp | requestLeg hp | tickEndLeg hp =>
    exact hf.target_floor (by rw [hp]; rfl)
  | unanswered | tickOn => exact hf.target_floor ht
  | answered hp => exact hf.target_floor (by rw [hp, ← inLeg_apply]; exact ht)
  | arm hp => exact hf.target_floor (by rw [hp, ← inLeg_tick]; exact ht)
  | nop | scale | next | setduty | legEnd | tickEnd | applySeed | applyPerturb | applyManual =>
    exact absurd ht (by simp [applySeed, applyPerturb, applyManual])
  | _ => exact absurd ht (by simp [inLeg])

/-- R35, R101: a generated target is at least the floor. -/
theorem micro_legStart_floor {i : Instr} {s t : State} (hf : DutyFloor s) (hm : Micro i s t) (x : Byte)
    (ht : t.pos = .legStart x) : s.build.pwmMin.toNat ≤ x.toNat := by
  cases hm with
  | unitAuto | generate =>
    obtain rfl : targetOf _ _ = x := by simpa using ht
    exact pwmMin_le_scale _ _
  | nothing => exact hf.legStart_floor x ht
  | unanswered hp | tickOn hp => exact hf.legStart_floor x ht
  | _ => simp [applySeed, applyPerturb, applyManual] at ht

/-- A micro-step of a command leaves its word in `cmd` (R70). -/
theorem micro_cmd {i : Instr} {s t : State} (hm : Micro i s t) : t.cmd = s.cmd := by
  cases hm <;> simp [applySeed, applyPerturb, applyManual]

/-- R35: every micro-step of the command in progress keeps the floor. -/
theorem micro_dutyFloor {i : Instr} {s t : State} (h : Inv s) (hf : DutyFloor s) (hi : InProgress i s)
    (hm : Micro i s t) : DutyFloor t := by
  have hb := micro_build hm
  have hc := micro_cmd hm
  exact {
    duty_floor := hb ▸ micro_duty_floor h hf hi hm
    target_floor := hb ▸ micro_target_floor hf hi hm
    legStart_floor := hb ▸ micro_legStart_floor hf hm
    setduty_floor := fun _ => by rw [hb, hc]; exact hf.setduty_floor hi.busy
    ramp_floor := fun _ => by rw [hb, hc]; exact hf.ramp_floor hi.busy }

/-- R35: an accepted operand that respects the floor waits in `cmd`. -/
theorem accept_dutyFloor {i : Instr} {s t : State} {w : Word} (hs : Ready s) (hf : DutyFloor s)
    (hset : ∀ v, decode w = .legal (.setduty v) → s.build.pwmMin.toNat ≤ v.toNat)
    (hramp : ∀ v, decode w = .legal (.ramp v) → s.build.pwmMin.toNat ≤ v.toNat)
    (hm : Micro i (acceptCommand w s) t) : DutyFloor t := by
  obtain ⟨-, rfl⟩ | ⟨-, rfl⟩ | ⟨-, -, rfl⟩ := micro_accept rfl hm
  · exact hs.complete_acceptCommand.dutyFloor hf.duty_floor
  · exact ⟨hf.duty_floor, by simp [inLeg], by simp, fun _ => hset, fun _ => hramp⟩
  · exact ⟨hf.duty_floor, by simp [inLeg], by simp, fun _ => hset, fun _ => hramp⟩

theorem DutyFloor.quiet {s : State} (h : DutyFloor s) : DutyFloor (quiet s) := { h with }

theorem DutyFloor.advance {s : State} (h : DutyFloor s) : DutyFloor (advance s) := { h with }

/-- Settles O20: reset has the floor, and each kind of step keeps it. -/
theorem dutyStaysAboveTheFloor : Obligations.DutyStaysAboveTheFloor := by
  unfold Obligations.DutyStaysAboveTheFloor
  have hreset : State.reset.build.pwmMin.toNat ≤ State.reset.build.initDuty.toNat := by
    have := State.reset.build.pwmMin.isLt
    rw [show State.reset.build.initDuty.toNat = 255 from rfl]
    omega
  refine ⟨⟨hreset, Ready.dutyFloor ⟨rfl, rfl, rfl, rfl⟩ hreset⟩, ?_⟩
  intro s t h hf hr hst
  cases step_cases hst with
  | reset _ ht => exact ht ▸ (Ready.dutyFloor (s := resetRegisters s) ⟨rfl, rfl, rfl, rfl⟩ hr.init_floor).advance
  | accept i u _ hi hv _ hm ht =>
    have hu := accept_dutyFloor (h.quiet.ready hi) hf.quiet (hr.setduty_offered hv) (hr.ramp_offered hv) hm
    exact ht ▸ hu.advance
  | illegal _ _ hi _ _ ht =>
    exact ht ▸ (h.ready hi).illegalCycle.dutyFloor (by simpa [illegalCycle] using hf.duty_floor)
  | idle _ _ _ ht => exact ht ▸ hf.quiet.advance
  | inProgress i u _ hi hd hm ht =>
    exact ht ▸ (micro_dutyFloor h.quiet hf.quiet (h.quiet.inProgress hi hd) hm).advance

/-! ## The PWM port -/

/-- R22, R53: from `s` to `t` the port is strobed with the new `duty`, or neither `duty` nor the port moves. -/
def PortMovesWithDuty (s t : State) : Prop :=
  (t.pwmWe = true ∧ t.pwmReg = t.duty ∧ t.trace = .dutyWrite t.duty :: s.trace) ∨
  (t.pwmWe = s.pwmWe ∧ t.duty = s.duty ∧ t.pwmReg = s.pwmReg ∧
    t.trace.countP isDutyWrite = s.trace.countP isDutyWrite)

/-- R53: SETDUTY, a move of a leg and the manual unit strobe the port; no other micro-step writes `duty`. -/
theorem micro_portMovesWithDuty {i : Instr} {s t : State} (h : Micro i s t) : PortMovesWithDuty s t := by
  cases h with
  | setduty | move => exact .inl (by simp)
  | applyManual => exact .inl (by simp [applyManual])
  | unitAuto | generate => exact .inr (by simp [generate])
  | applySeed => exact .inr (by simp [applySeed])
  | applyPerturb => exact .inr (by simp [applyPerturb])
  | _ => exact .inr (by simp [isDutyWrite])

/-- The micro-step of acceptance neither writes `duty` nor strobes the port. -/
theorem micro_accept_port {i : Instr} {s t : State} (hp : s.pos = .accept) (h : Micro i s t) :
    t.pwmWe = s.pwmWe ∧ t.duty = s.duty ∧ t.pwmReg = s.pwmReg ∧ t.trace = s.trace := by
  obtain ⟨-, rfl⟩ | ⟨-, rfl⟩ | ⟨-, -, rfl⟩ := micro_accept hp h <;> simp

/-- Settles O21: the command in progress moves `duty` with the port, and no other kind of step moves either. -/
theorem dutyAndPwmPortMoveTogether : Obligations.DutyAndPwmPortMoveTogether := by
  unfold Obligations.DutyAndPwmPortMoveTogether
  intro s t hr h
  cases step_cases h with
  | reset hrst => simp [hrst] at hr
  | accept i u _ _ _ _ hm ht =>
    obtain ⟨hwe, hduty, hreg, htrace⟩ := micro_accept_port rfl hm
    exact .inr (by simp [ht, hwe, hduty, hreg, htrace, isDutyWrite])
  | illegal _ _ _ _ _ ht => exact .inr (by simp [ht, illegalCycle, isDutyWrite])
  | idle _ _ _ ht => exact .inr (by simp [ht, idleCycle])
  | inProgress i u _ _ _ hm ht => simpa [PortMovesWithDuty, ht] using micro_portMovesWithDuty hm

/-! ## The writers of the data registers -/

/-- R21: the commands that write `rng`. -/
theorem micro_rng {i : Instr} {s t : State} (h : Micro i s t) (hne : t.rng ≠ s.rng) :
    i = .seed ∨ (∃ e, i = .next e) ∨ i = .perturb ∨ i = .manual ∨ (∃ e, i = .auto e) ∨ i = .run := by
  cases h with
  | next | generate | unitAuto | applyPerturb => simp
  | applySeed _ hi | applyManual _ hi => obtain rfl | rfl := hi <;> simp
  | _ => exact absurd (by simp) hne

/-- R21: the commands that write `res`. -/
theorem micro_res {i : Instr} {s t : State} (h : Micro i s t) (hne : t.res ≠ s.res) :
    (∃ x, i = .scale x) ∨ (∃ e, i = .next e) ∨ (∃ e, i = .auto e) ∨ i = .run := by
  cases h with
  | scale | next | generate | unitAuto => simp
  | _ => exact absurd (by simp [applySeed, applyPerturb, applyManual]) hne

/-- R21: the commands that write `duty`. -/
theorem micro_duty {i : Instr} {s t : State} (h : Micro i s t) (hne : t.duty ≠ s.duty) :
    (∃ v, i = .setduty v) ∨ i = .manual ∨ (∃ t, i = .ramp t) ∨ (∃ e, i = .auto e) ∨ i = .run := by
  cases h with
  | setduty => simp
  | applyManual _ hi => obtain rfl | rfl := hi <;> simp
  | move _ hi => obtain ⟨t, rfl⟩ | ⟨e, rfl⟩ | rfl := leg_command hi <;> simp
  | _ => exact absurd (by simp [applySeed, applyPerturb, generate]) hne

/-- R21: a data register changes only in a micro-step of the command in progress. -/
theorem step_data_inProgress {s t : State} (h : step s = .next t) (hr : (pinsOf s).rst = false)
    (hne : t.rng ≠ s.rng ∨ t.res ≠ s.res ∨ t.duty ≠ s.duty) :
    (s.busy = true ∨ s.run = true) ∧
      ∃ i u, decode s.cmd = .legal i ∧ Micro i (quiet s) u ∧ t = advance u := by
  cases step_cases h with
  | reset hrst => simp [hrst] at hr
  | accept i u _ _ _ _ hm ht =>
    exfalso
    obtain ⟨-, rfl⟩ | ⟨-, rfl⟩ | ⟨-, -, rfl⟩ := micro_accept rfl hm <;> simp [ht] at hne
  | illegal _ _ _ _ _ ht => simp [ht, illegalCycle] at hne
  | idle _ _ _ ht => simp [ht, idleCycle] at hne
  | inProgress i u _ hi hd hm ht =>
    exact ⟨(not_idleAndReady_iff s).1 hi, i, u, hd, hm, ht⟩

/-- Settles O22: a change needs a command in progress, and its micro-step says which one. -/
theorem dataRegistersHaveTheirWriters : Obligations.DataRegistersHaveTheirWriters := by
  unfold Obligations.DataRegistersHaveTheirWriters
  intro s t hr h
  refine ⟨fun hne => ?_, fun hne => ?_, fun hne => ?_⟩
  · obtain ⟨hb, i, u, hd, hm, ht⟩ := step_data_inProgress h hr (.inl hne)
    exact ⟨hb, by simpa [hd] using micro_rng hm (by simpa [ht] using hne)⟩
  · obtain ⟨hb, i, u, hd, hm, ht⟩ := step_data_inProgress h hr (.inr (.inl hne))
    exact ⟨hb, by simpa [hd] using micro_res hm (by simpa [ht] using hne)⟩
  · obtain ⟨hb, i, u, hd, hm, ht⟩ := step_data_inProgress h hr (.inr (.inr hne))
    exact ⟨hb, by simpa [hd] using micro_duty hm (by simpa [ht] using hne)⟩

/-! ## The dead registers -/

@[simp] theorem forgetDead_live (s : State) :
    (forgetDead s).pos = s.pos ∧ (forgetDead s).cmd = s.cmd ∧ (forgetDead s).mode = s.mode ∧
    (forgetDead s).busy = s.busy ∧ (forgetDead s).run = s.run := by
  simp [forgetDead]

@[simp] theorem pinsOf_forgetDead (s : State) : pinsOf (forgetDead s) = pinsOf s := rfl

@[simp] theorem forgetDead_forgetDead (s : State) : forgetDead (forgetDead s) = forgetDead s := by
  cases hl : inLeg s.pos <;> cases hc : inCountdown s.pos <;> simp [forgetDead, hl, hc]

/-- R32: at the position `p` the operation `f` gives the same with the dead registers forgotten before it. -/
def IgnoresDeadAt (p : Pos) (f : State → State) : Prop :=
  ∀ s, s.pos = p → forgetDead (f (forgetDead s)) = forgetDead (f s)

/-- R32: the operation `f` gives the same at every position. -/
def IgnoresDead (f : State → State) : Prop := ∀ s, forgetDead (f (forgetDead s)) = forgetDead (f s)

/-! ### The operations that leave the leg and the countdown, or set them up -/

theorem enter_ignoresDead : IgnoresDead enter := fun _ => rfl

/-- Where a command or a unit ends, all the internal registers are dead (R32). -/
theorem forgetDead_complete_congr {s t : State}
    (h : forgetDead { s with pos := .idle } = forgetDead { t with pos := .idle }) :
    forgetDead (complete s) = forgetDead (complete t) := by
  simp only [forgetDead, State.mk.injEq] at h
  simp [forgetDead, complete, h]

theorem complete_ignoresDead : IgnoresDead complete := fun _ => forgetDead_complete_congr rfl

theorem pollMode_ignoresDead : IgnoresDead pollMode := fun _ => rfl

theorem request_ignoresDead {u : SampleUse} (h : u ≠ .wait .leg) : IgnoresDead (request u) := by
  intro s
  rcases u with _ | _ | _ | _ | _
  · rfl
  · rfl
  · rfl
  · rfl
  · exact absurd rfl h

theorem generate_ignoresDead (e : Byte) : IgnoresDead (generate e) := fun _ => rfl

theorem legSetup_ignoresDead (t : Byte) : IgnoresDead (legSetup t) := fun _ => rfl

theorem applySeed_ignoresDead (v : Byte) : IgnoresDead (applySeed v) :=
  fun _ => forgetDead_complete_congr rfl

theorem applyPerturb_ignoresDead (v : Byte) : IgnoresDead (applyPerturb v) :=
  fun _ => forgetDead_complete_congr rfl

theorem applyManual_ignoresDead (v : Byte) : IgnoresDead (applyManual v) :=
  fun _ => forgetDead_complete_congr rfl

theorem raiseIllegal_forgetDead (w : Word) (s : State) :
    raiseIllegal w (forgetDead s) = forgetDead (raiseIllegal w s) := rfl

theorem illegalCycle_forgetDead (w : Word) (s : State) :
    illegalCycle w (forgetDead s) = forgetDead (illegalCycle w s) := by
  unfold illegalCycle
  exact congrArg advance (raiseIllegal_forgetDead w (latchCommand w (quiet s)))

/-! ### The operations of a leg and of a wait, at their positions -/

/-- In a leg and outside a countdown the dead registers are those of the countdown. -/
theorem forgetDead_of_inLeg {s : State} (hl : inLeg s.pos = true) (hc : inCountdown s.pos = false) :
    forgetDead s = { s with dlyUnits := 0, dlyCnt := 0 } := by
  simp [forgetDead, hl, hc]

theorem requestLeg_ignoresDeadAt : IgnoresDeadAt .wait (request (.wait .leg)) := by
  intro s hp
  rw [forgetDead_of_inLeg (s := s) (by rw [hp]; rfl) (by rw [hp]; rfl)]
  rfl

theorem decisionStep_ignoresDeadAt : IgnoresDeadAt .decide decisionStep := by
  intro s hp
  rw [forgetDead_of_inLeg (s := s) (by rw [hp]; rfl) (by rw [hp]; rfl)]
  have hm : legMoves { s with dlyUnits := 0, dlyCnt := 0 } = legMoves s := rfl
  unfold decisionStep
  rw [hm]
  split <;> rfl

theorem countStep_ignoresDeadAt : IgnoresDeadAt .count countStep := by
  intro s hp
  rw [forgetDead_of_inLeg (s := s) (by rw [hp]; rfl) (by rw [hp]; rfl)]
  have he : legEnds { s with dlyUnits := 0, dlyCnt := 0 } = legEnds s := rfl
  unfold countStep
  rw [he]
  split
  · exact forgetDead_complete_congr rfl
  · rfl

theorem awaitSample_ignoresDeadAt (u : SampleUse) : IgnoresDeadAt (.await u) (awaitSample u) := by
  intro s hp
  have ha : ((forgetDead s).smpReq && (pinsOf (forgetDead s)).smpAck) = (s.smpReq && (pinsOf s).smpAck) := rfl
  unfold awaitSample
  rw [ha]
  split
  · rw [pinsOf_forgetDead]
    cases hl : inLeg (.await u) <;>
      simp [forgetDead, latch, emit, hp, hl, inLeg_apply, inCountdown]
  · exact forgetDead_forgetDead { s with smpReq := true }

theorem armWait_ignoresDeadAt (w : WaitOf) (v : Byte) : IgnoresDeadAt (.apply (.wait w) v) (armWait w v) := by
  intro s hp
  cases w <;> simp [forgetDead, armWait, hp, inLeg, inCountdown]

theorem tickStep_ignoresDeadAt (w : WaitOf) : IgnoresDeadAt (.tick w) (tickStep w) := by
  intro s hp
  have hc : inCountdown s.pos = true := by rw [hp]; rfl
  have hn : dlyNext (forgetDead s) = dlyNext s := by simp [dlyNext, forgetDead, hc]
  have he : waitEnds (forgetDead s) = waitEnds s := by simp only [waitEnds, hn]
  unfold tickStep
  rw [hn, he]
  split
  · cases w with
    | command => exact forgetDead_complete_congr rfl
    | leg => simp [forgetDead, afterWait, goTo, emit, hp, inLeg, inCountdown]
  · cases hl : inLeg s.pos <;> simp [forgetDead, emit, hl, hc]

/-! ### The micro-steps of the commands -/

theorem waitStep_ignoresDead : IgnoresDead waitStep := by
  intro s
  simp only [waitStep, forgetDead_live]
  split
  · exact awaitSample_ignoresDeadAt _ s ‹_›
  · exact armWait_ignoresDeadAt _ _ s ‹_›
  · exact tickStep_ignoresDeadAt _ s ‹_›
  · exact forgetDead_forgetDead s

theorem legStep_ignoresDead : IgnoresDead legStep := by
  intro s
  simp only [legStep, forgetDead_live]
  split
  · exact decisionStep_ignoresDeadAt s ‹_›
  · exact requestLeg_ignoresDeadAt s ‹_›
  · exact countStep_ignoresDeadAt s ‹_›
  · exact waitStep_ignoresDead s

theorem manualStep_ignoresDead : IgnoresDead manualStep := by
  intro s
  simp only [manualStep, forgetDead_live]
  split
  · exact awaitSample_ignoresDeadAt _ s ‹_›
  · exact applyManual_ignoresDead _ s
  · exact forgetDead_forgetDead s

theorem autoStep_ignoresDead : IgnoresDead autoStep := by
  intro s
  simp only [autoStep, forgetDead_live]
  split
  · exact legSetup_ignoresDead _ s
  · exact legStep_ignoresDead s

theorem seedStep_ignoresDead : IgnoresDead seedStep := by
  intro s
  simp only [seedStep, forgetDead_live]
  split
  · exact awaitSample_ignoresDeadAt _ s ‹_›
  · exact applySeed_ignoresDead _ s
  · exact forgetDead_forgetDead s

theorem unitStart_ignoresDead : IgnoresDead unitStart := by
  intro s
  simp only [unitStart, forgetDead_live]
  split
  · exact generate_ignoresDead 0 s
  · exact request_ignoresDead (by simp) s

theorem runStep_ignoresDead : IgnoresDead runStep := by
  intro s
  simp only [runStep, forgetDead_live]
  split
  · exact awaitSample_ignoresDeadAt _ s ‹_›
  · exact applySeed_ignoresDead _ s
  · exact pollMode_ignoresDead s
  · exact unitStart_ignoresDead s
  · exact awaitSample_ignoresDeadAt _ s ‹_›
  · exact applyManual_ignoresDead _ s
  · exact autoStep_ignoresDead s

/-- A command with one micro-step ignores the dead registers when its effect does. -/
theorem oneMicroStep_ignoresDead {effect : State → State}
    (he : IgnoresDead fun s => complete (effect s)) : IgnoresDead fun s => oneMicroStep (effect s) s := by
  intro s
  simp only [oneMicroStep, forgetDead_live]
  split
  · exact enter_ignoresDead s
  · exact he s

/-- A command of several micro-steps ignores the dead registers when all of them do. -/
theorem severalMicroSteps_ignoresDead {first rest : State → State} (hf : IgnoresDead first)
    (hr : IgnoresDead rest) : IgnoresDead fun s => severalMicroSteps (first s) (rest s) s := by
  intro s
  simp only [severalMicroSteps, forgetDead_live]
  split
  · exact enter_ignoresDead s
  · exact hf s
  · exact hr s

/-- The micro-steps of PERTURB after its request (R116); at any other position, nothing. -/
def perturbStep (s : State) : State :=
  match s.pos with
  | .await .perturb => awaitSample .perturb s
  | .apply .perturb v => applyPerturb v s
  | _ => s

theorem perturbStep_ignoresDead : IgnoresDead perturbStep := by
  intro s
  simp only [perturbStep, forgetDead_live]
  split
  · exact awaitSample_ignoresDeadAt _ s ‹_›
  · exact applyPerturb_ignoresDead _ s
  · exact forgetDead_forgetDead s

/-- PERTURB is its request, then `perturbStep` (R116). -/
theorem exec_perturb (s : State) :
    exec .perturb s = .next (severalMicroSteps (request .perturb s) (perturbStep s) s) := rfl

/-- RUN's micro-steps, its acceptance and its request for the seed too (R173). -/
theorem exec_run_forgetDead (s : State) :
    forgetDeadAfter (exec .run (forgetDead s)) = forgetDeadAfter (exec .run s) := by
  simp only [exec, execRun, forgetDead_live, forgetDeadAfter]
  congr 1
  split
  · rfl
  · rfl
  · exact runStep_ignoresDead s

/-- A meaning made of an operation that ignores the dead registers ignores them. -/
theorem IgnoresDead.exec {f : State → State} {i : Instr} (h : IgnoresDead f)
    (he : ∀ s, exec i s = .next (f s)) (s : State) :
    forgetDeadAfter (exec i (forgetDead s)) = forgetDeadAfter (exec i s) := by
  rw [he, he]
  exact congrArg Host.Outcome.next (h s)

/-- R32: a command's meaning is the same with the dead registers forgotten before it. -/
theorem exec_forgetDead (i : Instr) (s : State) :
    forgetDeadAfter (exec i (forgetDead s)) = forgetDeadAfter (exec i s) := by
  have asks {u : SampleUse} (hu : u ≠ .wait .leg) {rest : State → State} (hr : IgnoresDead rest) :=
    severalMicroSteps_ignoresDead (request_ignoresDead hu) hr
  cases i with
  | nop => exact complete_ignoresDead.exec (fun _ => rfl) s
  | scale | next | setduty =>
    exact (oneMicroStep_ignoresDead fun _ => forgetDead_complete_congr rfl).exec (fun _ => rfl) s
  | seed => exact (asks (by simp) seedStep_ignoresDead).exec (fun _ => rfl) s
  | perturb => exact (asks (by simp) perturbStep_ignoresDead).exec exec_perturb s
  | manual => exact (asks (by simp) manualStep_ignoresDead).exec (fun _ => rfl) s
  | delay => exact (asks (by simp) waitStep_ignoresDead).exec (fun _ => rfl) s
  | ramp t =>
    exact (severalMicroSteps_ignoresDead (legSetup_ignoresDead t) legStep_ignoresDead).exec (fun _ => rfl) s
  | auto e =>
    exact (severalMicroSteps_ignoresDead (generate_ignoresDead e) autoStep_ignoresDead).exec (fun _ => rfl) s
  | run => exact exec_run_forgetDead s

/-! ### The step -/

/-- What a step does after a meaning touches no register. -/
theorem forgetDeadAfter_afterCommand {o o' : Host.Outcome State Fault Refusal}
    (h : forgetDeadAfter o = forgetDeadAfter o') :
    forgetDeadAfter (afterCommand o) = forgetDeadAfter (afterCommand o') := by
  have commutes (o : Host.Outcome State Fault Refusal) :
      forgetDeadAfter (afterCommand o) = afterCommand (forgetDeadAfter o) := by cases o <;> rfl
  rw [commutes, commutes, h]

/-- R32: a command's meaning takes states with equal live registers to such states. -/
theorem exec_congr_forgetDead (i : Instr) {s t : State} (h : forgetDead s = forgetDead t) :
    forgetDeadAfter (exec i s) = forgetDeadAfter (exec i t) := by
  rw [← exec_forgetDead i s, h, exec_forgetDead i t]

/-- R32: a step is the same with the dead registers forgotten before it. -/
theorem step_forgetDead (s : State) : forgetDeadAfter (step (forgetDead s)) = forgetDeadAfter (step s) := by
  cases hr : (pinsOf s).rst with
  | true => rw [step_reset hr, step_reset (s := forgetDead s) hr]; rfl
  | false =>
    cases hi : idleAndReady s with
    | true =>
      cases hv : (pinsOf s).cmdValid with
      | true =>
        cases hd : decode (pinsOf s).cmd with
        | legal i =>
          rw [step_accept hr hi hv hd, step_accept (s := forgetDead s) hr hi hv hd]
          exact forgetDeadAfter_afterCommand (exec_congr_forgetDead i rfl)
        | illegal _ =>
          rw [step_illegal hr hi hv hd, step_illegal (s := forgetDead s) hr hi hv hd, pinsOf_forgetDead,
            illegalCycle_forgetDead]
          exact congrArg Host.Outcome.next (forgetDead_forgetDead (illegalCycle (pinsOf s).cmd s))
      | false =>
        rw [step_idle hr hi hv, step_idle (s := forgetDead s) hr hi hv]
        exact congrArg Host.Outcome.next (forgetDead_forgetDead (idleCycle s))
    | false =>
      cases hd : decode s.cmd with
      | legal i =>
        rw [step_inProgress hr hi hd, step_inProgress (s := forgetDead s) hr hi hd]
        exact forgetDeadAfter_afterCommand (exec_congr_forgetDead i (forgetDead_forgetDead (quiet s)))
      | illegal _ => rw [step_noCommand hr hi hd, step_noCommand (s := forgetDead s) hr hi hd]

/-- Settles O26: each step is that of the state with its dead registers forgotten. -/
theorem deadRegistersNeverMatter : Obligations.DeadRegistersNeverMatter := by
  unfold Obligations.DeadRegistersNeverMatter
  intro s t h
  rw [← step_forgetDead s, h, step_forgetDead t]

end Sys2Proof.Machine
end

