-- ==== Sys2Proof/Proofs/Memory.lean ====
section
/-!
PROOF. Sys2Proof/Proofs/Memory.lean: the statements of spec/20_memory.md: the sampler transaction (R52, R233), and
the input levels that a step does not read (R52, R54, R176).
-/

namespace Sys2Proof.Machine

/-! ## The sampler transaction -/

/-- R33: the one transaction of a ramp leg is that of its delay wait. -/
theorem inLeg_await_iff (u : SampleUse) : inLeg (.await u) = true ↔ u = .wait .leg := by
  rcases u with _ | _ | _ | _ | _ <;> simp [inLeg]

/-- A wait's micro-step inside its read (R150). -/
theorem waitStep_await {w : WaitOf} {s : State} (hp : s.pos = .await (.wait w)) :
    waitStep s = awaitSample (.wait w) s := by
  simp [waitStep, hp]

/-- A leg's micro-step inside the read of its wait (R131). -/
theorem legStep_await {s : State} (hp : s.pos = .await (.wait .leg)) :
    legStep s = awaitSample (.wait .leg) s := by
  simp [legStep, hp, waitStep_await hp]

/-- The auto unit's micro-step inside the read of its leg's wait (R172). -/
theorem autoStep_await {s : State} (hp : s.pos = .await (.wait .leg)) :
    autoStep s = awaitSample (.wait .leg) s := by
  simp [autoStep, hp, legStep_await hp]

/-- R33: RUN reads for its seed, for a manual unit and for its legs' waits (R173). -/
theorem belongs_run_await {u : SampleUse} (hb : belongs .run (.await u) = true) :
    u = .seed ∨ u = .manual ∨ u = .wait .leg := by
  rcases u with _ | _ | _ | _ | _ <;> simp_all [belongs, reading, inLeg]

/-- R52: inside its own `ReadInput()`, a command waits for the sampler. -/
theorem exec_await {i : Instr} {u : SampleUse} {s : State} (hb : belongs i (.await u) = true)
    (hp : s.pos = .await u) : exec i s = .next (awaitSample u s) := by
  cases i with
  | nop | scale | next | setduty => simp [belongs] at hb
  | seed =>
    obtain rfl : u = .seed := by simpa [belongs, reading] using hb
    simp [exec, execSeed, severalMicroSteps, seedStep, hp]
  | perturb =>
    obtain rfl : u = .perturb := by simpa [belongs, reading] using hb
    simp [exec_perturb, severalMicroSteps, perturbStep, hp]
  | manual =>
    obtain rfl : u = .manual := by simpa [belongs, reading] using hb
    simp [exec, execManual, severalMicroSteps, manualStep, hp]
  | delay =>
    obtain rfl : u = .wait .command := by simpa [belongs, reading] using hb
    simp [exec, execDelay, severalMicroSteps, hp, waitStep_await hp]
  | ramp t =>
    obtain rfl : u = .wait .leg := by simpa [belongs, inLeg_await_iff] using hb
    simp [exec, execRamp, severalMicroSteps, hp, legStep_await hp]
  | auto e =>
    obtain rfl : u = .wait .leg := by simpa [belongs, inLeg_await_iff] using hb
    simp [exec, execAuto, severalMicroSteps, hp, autoStep_await hp]
  | run =>
    obtain rfl | rfl | rfl := belongs_run_await hb
    · simp [exec, execRun, runStep, hp]
    · simp [exec, execRun, runStep, hp]
    · simp [exec, execRun, runStep, hp, autoStep_await hp]

/-- R52: an answer to the outstanding request is latched. -/
theorem awaitSample_answered {u : SampleUse} {s : State} (hr : s.smpReq = true)
    (ha : (pinsOf s).smpAck = true) : awaitSample u s = latch u (pinsOf s).smpData s := by
  simp [awaitSample, hr, ha]

/-- R52, R233: without an answer the request stays, and nothing else happens. -/
theorem awaitSample_unanswered {u : SampleUse} {s : State} (hr : s.smpReq = true)
    (ha : (pinsOf s).smpAck = false) : awaitSample u s = s := by
  simp [awaitSample, ha, ← hr]

/-- Settles O37: every command's read is `awaitSample`, which latches the answer or waits. -/
theorem samplerTransaction : Obligations.SamplerTransaction := by
  unfold Obligations.SamplerTransaction
  intro i u s hb hp hr
  rw [exec_await hb hp]
  constructor
  · intro ha
    rw [awaitSample_answered hr ha]
    rfl
  · intro ha
    rw [awaitSample_unanswered hr ha]

/-! ## The input levels that a step does not read -/

/-- The levels `q` are those of the coming step of `s` wherever the CORE reads them: the sampler's answer
under a request alone (R52), `mode_sw` at RUN's poll alone (R54). -/
structure SameWhereRead (q : Pins) (s : State) : Prop where
  rst : q.rst = (pinsOf s).rst
  cmdValid : q.cmdValid = (pinsOf s).cmdValid
  cmd : q.cmd = (pinsOf s).cmd
  smpAck : s.smpReq = true → q.smpAck = (pinsOf s).smpAck
  smpData : s.smpReq = true → q.smpData = (pinsOf s).smpData
  modeSw : s.pos = .poll → q.modeSw = (pinsOf s).modeSw

theorem sameWhereRead_pinsOf (s : State) : SameWhereRead (pinsOf s) s :=
  ⟨rfl, rfl, rfl, fun _ => rfl, fun _ => rfl, fun _ => rfl⟩

theorem SameWhereRead.quiet {q : Pins} {s : State} (h : SameWhereRead q s) : SameWhereRead q (quiet s) :=
  { h with }

/-- R70: an acceptance is not RUN's poll. -/
theorem SameWhereRead.acceptCommand {q : Pins} {s : State} (h : SameWhereRead q s) (w : Word) :
    SameWhereRead q (acceptCommand w s) :=
  { h with modeSw := fun hp => by simp at hp }

@[simp] theorem pinsOf_withPins (q : Pins) (s : State) : pinsOf (withPins q s) = q := rfl

@[simp] theorem withPins_registers (q : Pins) (s : State) :
    (withPins q s).pos = s.pos ∧ (withPins q s).smpReq = s.smpReq ∧ (withPins q s).mode = s.mode := by
  simp [withPins]

/-- The step has used its levels when it ends. -/
theorem advance_withPins (q : Pins) (s : State) : advance (withPins q s) = advance s := rfl

/-! ### The two operations that read the levels -/

/-- R52: the sampler's answer is read under a request alone. -/
theorem awaitSample_withPins {q : Pins} {s : State} (h : SameWhereRead q s) (u : SampleUse) :
    awaitSample u (withPins q s) = withPins q (awaitSample u s) := by
  cases hr : s.smpReq with
  | false => simp [awaitSample, hr, withPins]
  | true =>
    simp only [awaitSample, withPins_registers, pinsOf_withPins, h.smpAck hr, h.smpData hr]
    split <;> rfl

/-- R54: `mode_sw` is read at RUN's poll. -/
theorem pollMode_withPins {q : Pins} {s : State} (h : SameWhereRead q s) (hp : s.pos = .poll) :
    pollMode (withPins q s) = withPins q (pollMode s) := by
  simp only [pollMode, pinsOf_withPins, h.modeSw hp]
  rfl

/-! ### The operations that read no level -/

theorem decisionStep_withPins (q : Pins) (s : State) :
    decisionStep (withPins q s) = withPins q (decisionStep s) := by
  have hm : legMoves (withPins q s) = legMoves s := rfl
  unfold decisionStep
  rw [hm]
  split <;> rfl

theorem countStep_withPins (q : Pins) (s : State) : countStep (withPins q s) = withPins q (countStep s) := by
  have he : legEnds (withPins q s) = legEnds s := rfl
  unfold countStep
  rw [he]
  split <;> rfl

theorem tickStep_withPins (q : Pins) (w : WaitOf) (s : State) :
    tickStep w (withPins q s) = withPins q (tickStep w s) := by
  have he : waitEnds (withPins q s) = waitEnds s := rfl
  unfold tickStep
  rw [he]
  split
  · cases w <;> rfl
  · rfl

theorem generate_withPins (q : Pins) (e : Byte) (s : State) :
    generate e (withPins q s) = withPins q (generate e s) := rfl

theorem unitStart_withPins (q : Pins) (s : State) : unitStart (withPins q s) = withPins q (unitStart s) := by
  simp only [unitStart, withPins_registers]
  split
  · exact generate_withPins q 0 s
  · rfl

/-! ### The micro-steps of the commands -/

section
variable {q : Pins} {s : State}

theorem waitStep_withPins (h : SameWhereRead q s) : waitStep (withPins q s) = withPins q (waitStep s) := by
  simp only [waitStep, withPins_registers]
  split
  · exact awaitSample_withPins h _
  · rfl
  · exact tickStep_withPins q _ s
  · rfl

theorem legStep_withPins (h : SameWhereRead q s) : legStep (withPins q s) = withPins q (legStep s) := by
  simp only [legStep, withPins_registers]
  split
  · exact decisionStep_withPins q s
  · rfl
  · exact countStep_withPins q s
  · exact waitStep_withPins h

theorem autoStep_withPins (h : SameWhereRead q s) : autoStep (withPins q s) = withPins q (autoStep s) := by
  simp only [autoStep, withPins_registers]
  split
  · rfl
  · exact legStep_withPins h

theorem manualStep_withPins (h : SameWhereRead q s) :
    manualStep (withPins q s) = withPins q (manualStep s) := by
  simp only [manualStep, withPins_registers]
  split
  · exact awaitSample_withPins h _
  · rfl
  · rfl

theorem seedStep_withPins (h : SameWhereRead q s) : seedStep (withPins q s) = withPins q (seedStep s) := by
  simp only [seedStep, withPins_registers]
  split
  · exact awaitSample_withPins h _
  · rfl
  · rfl

theorem perturbStep_withPins (h : SameWhereRead q s) :
    perturbStep (withPins q s) = withPins q (perturbStep s) := by
  simp only [perturbStep, withPins_registers]
  split
  · exact awaitSample_withPins h _
  · rfl
  · rfl

theorem runStep_withPins (h : SameWhereRead q s) : runStep (withPins q s) = withPins q (runStep s) := by
  simp only [runStep, withPins_registers]
  split
  · exact awaitSample_withPins h _
  · rfl
  · exact pollMode_withPins h ‹_›
  · exact unitStart_withPins q s
  · exact awaitSample_withPins h _
  · rfl
  · exact autoStep_withPins h

/-- A command with one micro-step reads a level only in its effect. -/
theorem oneMicroStep_withPins {effect effect' : State} (he : effect' = withPins q effect) :
    oneMicroStep effect' (withPins q s) = withPins q (oneMicroStep effect s) := by
  simp only [oneMicroStep, withPins_registers, he]
  split <;> rfl

/-- A command of several micro-steps reads a level only in these. -/
theorem severalMicroSteps_withPins {first first' rest rest' : State} (hf : first' = withPins q first)
    (hr : rest' = withPins q rest) :
    severalMicroSteps first' rest' (withPins q s) = withPins q (severalMicroSteps first rest s) := by
  simp only [severalMicroSteps, withPins_registers, hf, hr]
  split <;> rfl

/-! ### The commands and the step -/

/-- RUN's micro-steps, its acceptance and its request for the seed too (R173). -/
theorem exec_run_withPins (h : SameWhereRead q s) :
    ∃ t, exec .run s = .next t ∧ exec .run (withPins q s) = .next (withPins q t) := by
  refine ⟨_, rfl, congrArg Host.Outcome.next ?_⟩
  simp only [withPins_registers]
  split
  · rfl
  · rfl
  · exact runStep_withPins h

/-- R52, R54: a command's meaning answers the same next state for levels that differ only where the CORE
does not read them, and touches no level. -/
theorem exec_withPins (i : Instr) (h : SameWhereRead q s) :
    ∃ t, exec i s = .next t ∧ exec i (withPins q s) = .next (withPins q t) := by
  have several {first first' rest rest' : State} (hf : first' = withPins q first)
      (hr : rest' = withPins q rest) :=
    congrArg (Host.Outcome.next (φ := Fault) (ρ := Refusal)) (severalMicroSteps_withPins (s := s) hf hr)
  cases i with
  | nop => exact ⟨_, rfl, rfl⟩
  | scale | next | setduty => exact ⟨_, rfl, congrArg Host.Outcome.next (oneMicroStep_withPins rfl)⟩
  | seed => exact ⟨_, rfl, several rfl (seedStep_withPins h)⟩
  | perturb => exact ⟨_, exec_perturb s, several rfl (perturbStep_withPins h)⟩
  | manual => exact ⟨_, rfl, several rfl (manualStep_withPins h)⟩
  | delay => exact ⟨_, rfl, several rfl (waitStep_withPins h)⟩
  | ramp => exact ⟨_, rfl, several rfl (legStep_withPins h)⟩
  | auto => exact ⟨_, rfl, several rfl (autoStep_withPins h)⟩
  | run => exact exec_run_withPins h

/-- A command's micro-step, with what the step does after it, is the same whatever the unread levels are. -/
theorem afterCommand_exec_withPins (i : Instr) (h : SameWhereRead q s) :
    afterCommand (exec i (withPins q s)) = afterCommand (exec i s) := by
  obtain ⟨t, hs, hq⟩ := exec_withPins i h
  rw [hs, hq]
  exact congrArg Host.Outcome.next (advance_withPins q t)

/-- R52, R54: a step is the same whatever the unread levels are. -/
theorem step_withPins (h : SameWhereRead q s) : step (withPins q s) = step s := by
  cases hr : (pinsOf s).rst with
  | true => rw [step_reset hr, step_reset (s := withPins q s) (h.rst.trans hr)]; rfl
  | false =>
    have hr' : (pinsOf (withPins q s)).rst = false := h.rst.trans hr
    cases hi : idleAndReady s with
    | true =>
      cases hv : (pinsOf s).cmdValid with
      | true =>
        have hv' : (pinsOf (withPins q s)).cmdValid = true := h.cmdValid.trans hv
        cases hd : decode (pinsOf s).cmd with
        | legal i =>
          rw [step_accept hr hi hv hd, step_accept (i := i) hr' hi hv' (by rw [← hd, ← h.cmd]; rfl),
            pinsOf_withPins, h.cmd]
          exact afterCommand_exec_withPins i (h.quiet.acceptCommand _)
        | illegal why =>
          rw [step_illegal hr hi hv hd, step_illegal (why := why) hr' hi hv' (by rw [← hd, ← h.cmd]; rfl),
            pinsOf_withPins, h.cmd]
          rfl
      | false => rw [step_idle hr hi hv, step_idle hr' hi (h.cmdValid.trans hv)]; rfl
    | false =>
      cases hd : decode s.cmd with
      | legal i =>
        rw [step_inProgress hr hi hd, step_inProgress (i := i) hr' hi hd]
        exact afterCommand_exec_withPins i h.quiet
      | illegal _ => rw [step_noCommand hr hi hd, step_noCommand hr' hi hd]

end

/-- Settles O27: without a request the answer is not read, away from the poll `mode_sw` is not read. -/
theorem unreadInputsAreIgnored : Obligations.UnreadInputsAreIgnored := by
  unfold Obligations.UnreadInputsAreIgnored
  constructor
  · intro s a d hr
    have h : SameWhereRead { pinsOf s with smpAck := a, smpData := d } s :=
      { sameWhereRead_pinsOf s with smpAck := by simp [hr], smpData := by simp [hr] }
    rw [step_withPins h, step_withPins (sameWhereRead_pinsOf s)]
  · intro s b hp
    have h : SameWhereRead { pinsOf s with modeSw := b } s :=
      { sameWhereRead_pinsOf s with modeSw := fun hpoll => absurd hpoll hp }
    rw [step_withPins h, step_withPins (sameWhereRead_pinsOf s)]

end Sys2Proof.Machine
end

