-- ==== Sys2Proof/Proofs/Encoding.lean ====
section
/-!
PROOF. Sys2Proof/Proofs/Encoding.lean: the statements of spec/30_encoding.md: the encoder and the decoder undo
each other (R71, R75, R78), the opcode map (R74), the counts of legal and illegal words (R75), the
pseudo-instructions (R79), and the handshake that accepts a word (R70, R173).
-/

namespace Sys2Proof

/-! ## Words and their fields -/

/-- R71: the three fields of a word are those it was put together from. -/
@[simp] theorem fieldsOfWord_wordOfFields (f : Fields) : fieldsOfWord (wordOfFields f) = f := by
  obtain ⟨op, rsv, imm⟩ := f
  simp only [fieldsOfWord, wordOfFields, Fields.mk.injEq]
  refine ⟨?_, ?_, ?_⟩ <;> ext k hk <;> simp <;> grind

/-- R71: a word is nothing but its three fields. -/
@[simp] theorem wordOfFields_fieldsOfWord (w : Word) : wordOfFields (fieldsOfWord w) = w := by
  simp only [wordOfFields, fieldsOfWord]
  ext k hk
  grind

theorem wordOfFields_inj {f g : Fields} : wordOfFields f = wordOfFields g ↔ f = g :=
  (Function.LeftInverse.injective fieldsOfWord_wordOfFields).eq_iff

/-- R71, R72: the three checks of R75 on the fields. -/
theorem Fields.wellFormed_iff (f : Fields) :
    f.wellFormed = true ↔ f.op.toNat < 0xB ∧ f.rsv = 0 ∧ (f.isCN = true → f.imm = 0) := by
  cases h : f.isCN <;> simp [wellFormed, opDefined, rsvZero, operandAllowed, h, and_assoc]

/-- R74: the opcodes of the C-N forms, as a membership. -/
theorem Fields.isCN_iff (f : Fields) : f.isCN = true ↔ f.op.toNat ∈ [0x0, 0x2, 0x4, 0x5, 0x7, 0xA] := by
  simp only [isCN, List.contains_iff_mem]

/-! ## Commands and their fields -/

/-- R74: an opcode has no command exactly when it is reserved. -/
theorem commandOfOp_eq_none_iff (op : Nat) (imm : Byte) : commandOfOp op imm = none ↔ 0xB ≤ op := by
  unfold commandOfOp
  split <;> simp_all
  omega

/-- R74: an opcode below the reserved ones has a command. -/
theorem exists_commandOfOp {op : Nat} (h : op < 0xB) (imm : Byte) : ∃ i, commandOfOp op imm = some i :=
  Option.ne_none_iff_exists'.1 fun hn => absurd ((commandOfOp_eq_none_iff op imm).1 hn) (by omega)

/-- R74: the command of an opcode has that opcode, and the operand if its form takes one. -/
theorem commandOfOp_eq_some {f : Fields} {i : Instr} (h : commandOfOp f.op.toNat f.imm = some i) :
    (opOf i).toNat = f.op.toNat ∧ immOf i = if f.isCN then 0 else f.imm := by
  unfold commandOfOp at h
  split at h <;> cases h <;> simp [opOf, immOf, Fields.isCN, *]

@[simp] theorem commandOfOp_fieldsOf (i : Instr) :
    commandOfOp (fieldsOf i).op.toNat (fieldsOf i).imm = some i := by
  cases i <;> rfl

/-- R71, R74, R75: the family `FieldsLegal`, over every command. -/
theorem fieldsLegal (i : Instr) : Laws.FieldsLegal.Statement i := by
  cases i with
  | nop => exact Laws.FieldsLegal.nop
  | scale x => exact Laws.FieldsLegal.scale x
  | seed => exact Laws.FieldsLegal.seed
  | next e => exact Laws.FieldsLegal.next e
  | perturb => exact Laws.FieldsLegal.perturb
  | manual => exact Laws.FieldsLegal.manual
  | setduty v => exact Laws.FieldsLegal.setduty v
  | delay => exact Laws.FieldsLegal.delay
  | ramp t => exact Laws.FieldsLegal.ramp t
  | auto e => exact Laws.FieldsLegal.auto e
  | run => exact Laws.FieldsLegal.run

/-- R72, R75: the fields that pass the checks are those of the commands. -/
theorem Fields.wellFormed_iff_fieldsOf (f : Fields) : f.wellFormed = true ↔ ∃ i, fieldsOf i = f := by
  constructor
  · intro hf
    obtain ⟨hop, hrsv, himm⟩ := f.wellFormed_iff.1 hf
    obtain ⟨i, hi⟩ := exists_commandOfOp hop f.imm
    obtain ⟨hopi, himmi⟩ := commandOfOp_eq_some hi
    have himm' : immOf i = f.imm := by
      rw [himmi]
      split
      · exact (himm ‹_›).symm
      · rfl
    refine ⟨i, ?_⟩
    rw [fieldsOf, himm', BitVec.eq_of_toNat_eq hopi, ← hrsv]
  · rintro ⟨i, rfl⟩
    exact (fieldsLegal i).1

/-! ## The decoder -/

/-- R75: the first test. -/
theorem decode_reservedOp {w : Word} (h : 0xB ≤ (fieldsOfWord w).op.toNat) :
    decode w = .illegal .reservedOp := by
  simp [decode, (commandOfOp_eq_none_iff _ _).2 h]

/-- R75: the second test. -/
theorem decode_reservedBits {w : Word} (hop : (fieldsOfWord w).op.toNat < 0xB)
    (h : (fieldsOfWord w).rsv ≠ 0) : decode w = .illegal .reservedBits := by
  obtain ⟨i, hi⟩ := exists_commandOfOp hop (fieldsOfWord w).imm
  have hf : (fieldsOfWord w).rsvZero = false := by simpa [Fields.rsvZero] using h
  simp [decode, hi, hf]

/-- R75: the third test. -/
theorem decode_operandOnCN {w : Word} (hop : (fieldsOfWord w).op.toNat < 0xB)
    (hrsv : (fieldsOfWord w).rsv = 0) (hcn : (fieldsOfWord w).isCN = true) (h : (fieldsOfWord w).imm ≠ 0) :
    decode w = .illegal .operandOnCN := by
  obtain ⟨i, hi⟩ := exists_commandOfOp hop (fieldsOfWord w).imm
  have hr : (fieldsOfWord w).rsvZero = true := by simp [Fields.rsvZero, hrsv]
  have hf : (fieldsOfWord w).operandAllowed = false := by simpa [Fields.operandAllowed, hcn] using h
  simp [decode, hi, hr, hf]

/-- R71, R78: the fields of a command's word are the command's. -/
@[simp] theorem fieldsOfWord_encode (i : Instr) : fieldsOfWord (encode i) = fieldsOf i :=
  fieldsOfWord_wordOfFields (fieldsOf i)

/-- R71: `op` in bits 15:12 of a command's word. -/
theorem extract_op_encode (i : Instr) : (encode i).extractLsb' 12 4 = opOf i :=
  congrArg Fields.op (fieldsOfWord_encode i)

/-- R71: `imm8` in bits 7:0 of a command's word. -/
theorem extract_imm_encode (i : Instr) : (encode i).extractLsb' 0 8 = immOf i :=
  congrArg Fields.imm (fieldsOfWord_encode i)

/-- R71, R74: decoding undoes encoding. -/
@[simp] theorem decode_encode (i : Instr) : decode (encode i) = .legal i := by
  have h := (fieldsLegal i).1
  simp only [wellFormed, Fields.wellFormed, Bool.and_eq_true] at h
  obtain ⟨⟨-, hrsv⟩, himm⟩ := h
  simp [decode, hrsv, himm]

/-- R75: a word whose fields pass the checks is the word of a command. -/
theorem wellFormed_iff_encode (w : Word) : (fieldsOfWord w).wellFormed = true ↔ ∃ i, encode i = w := by
  simp only [Fields.wellFormed_iff_fieldsOf, encode]
  constructor
  · rintro ⟨i, hi⟩
    exact ⟨i, by rw [hi, wordOfFields_fieldsOfWord]⟩
  · rintro ⟨i, rfl⟩
    exact ⟨i, by rw [fieldsOfWord_wordOfFields]⟩

/-- R75: a word that decodes to a command has passed the three tests. -/
theorem wellFormed_of_decode {w : Word} {i : Instr} (h : decode w = .legal i) :
    (fieldsOfWord w).wellFormed = true := by
  by_contra hf
  rw [Fields.wellFormed_iff] at hf
  by_cases hop : (fieldsOfWord w).op.toNat < 0xB
  · by_cases hrsv : (fieldsOfWord w).rsv = 0
    · have himm : (fieldsOfWord w).isCN = true ∧ (fieldsOfWord w).imm ≠ 0 := by simpa [hop, hrsv] using hf
      rw [decode_operandOnCN hop hrsv himm.1 himm.2] at h
      cases h
    · rw [decode_reservedBits hop hrsv] at h
      cases h
  · rw [decode_reservedOp (by omega)] at h
    cases h

/-- R71, R75: a legal word is the word of its command. -/
theorem decode_eq_legal_iff (w : Word) (i : Instr) : decode w = .legal i ↔ encode i = w := by
  constructor
  · intro h
    obtain ⟨j, rfl⟩ := (wellFormed_iff_encode w).1 (wellFormed_of_decode h)
    obtain rfl : j = i := by simpa using h
    rfl
  · rintro rfl
    exact decode_encode i

theorem isLegal_iff (d : Decoded) : isLegal d = true ↔ ∃ i, d = .legal i := by
  cases d <;> simp [isLegal]

/-- R75: the legal words are the words of the commands. -/
theorem isLegal_decode_iff (w : Word) : isLegal (decode w) = true ↔ ∃ i, encode i = w := by
  simp only [isLegal_iff, decode_eq_legal_iff]

/-- Settles O1: the fields of a word are those it was put together from. -/
theorem encodedCommandDecodes : Obligations.EncodedCommandDecodes := by
  unfold Obligations.EncodedCommandDecodes
  intro i _
  exact decode_encode i

/-- Settles O2: a word that passes the tests of R75 is a command's, and decoding gives that command back. -/
theorem legalWordIsItsCommandsWord : Obligations.LegalWordIsItsCommandsWord := by
  unfold Obligations.LegalWordIsItsCommandsWord
  intro w i h
  exact (decode_eq_legal_iff w i).1 h

/-- Settles O5: eleven of the words are the commands' own, and each other one fails a test of R75. -/
theorem specWordsDecode : Obligations.SpecWordsDecode := by
  unfold Obligations.SpecWordsDecode
  exact ⟨decode_encode .nop, decode_encode (.scale 0x80), decode_encode .seed, decode_encode (.next 0xFF),
    decode_encode .perturb, decode_encode .manual, decode_encode (.setduty 0xFF), decode_encode .delay,
    decode_encode (.ramp 0x00), decode_encode (.auto 0x00), decode_encode .run,
    decode_operandOnCN (by decide) (by decide) (by decide) (by decide),
    decode_reservedBits (by decide) (by decide), decode_reservedOp (by decide)⟩

/-! ## The opcode map -/

/-- R74: the mask of a C-N row keeps a word whole, and that of a C-I row drops the operand. -/
theorem wordOfFields_and_mask (f : Fields) (isCN : Bool) :
    wordOfFields f &&& (if isCN then 0xFFFF else 0xFF00) =
      wordOfFields (if isCN then f else { f with imm := 0 }) := by
  cases isCN with
  | true => exact BitVec.and_allOnes
  | false =>
    have h : (f.op ++ f.rsv ++ f.imm) &&& (BitVec.allOnes 4 ++ BitVec.allOnes 4 ++ 0#8) =
        f.op ++ f.rsv ++ 0#8 := by
      simp only [BitVec.and_append, BitVec.and_allOnes, BitVec.and_zero]
    exact h

/-- The fields of a row's `match` (R74). -/
def OpcodeRow.fields (r : OpcodeRow) : Fields := { op := BitVec.ofNat 4 r.op, rsv := 0, imm := 0 }

/-- R72, R74: a row's `match` is its opcode's word without an operand, and its mask covers the operand in the
C-N forms alone. -/
theorem opcodeMap_row {r : OpcodeRow} (hr : r ∈ opcodeMap) :
    r.op < 0xB ∧ r.pattern = wordOfFields r.fields ∧ r.mask = if r.fields.isCN then 0xFFFF else 0xFF00 := by
  revert r
  decide

/-- R74: no two rows have one opcode. -/
theorem opcodeMap_op_inj {r r' : OpcodeRow} (hr : r ∈ opcodeMap) (hr' : r' ∈ opcodeMap)
    (h : r.op = r'.op) : r = r' := by
  have distinct : ∀ r ∈ opcodeMap, ∀ r' ∈ opcodeMap, r.op = r'.op → r = r' := by decide
  exact distinct r hr r' hr' h

/-- The masked fields of a word are the row's `match` when the opcode is the row's, `rsv` is 0 and, in a C-N
form, `imm8` is 0 (R71, R72). -/
theorem maskedFields_iff (r : OpcodeRow) (f : Fields) (isCN : Bool) :
    (if isCN then f else { f with imm := 0 }) = r.fields ↔
      f.op = r.fields.op ∧ f.rsv = 0 ∧ (isCN = true → f.imm = 0) := by
  obtain ⟨op, rsv, imm⟩ := f
  cases isCN <;> simp [OpcodeRow.fields]

/-- R74: a row matches the words of its opcode that pass the checks of R75. -/
theorem rowMatches_iff {r : OpcodeRow} (hr : r ∈ opcodeMap) (w : Word) :
    rowMatches r w = true ↔ (fieldsOfWord w).op.toNat = r.op ∧ (fieldsOfWord w).wellFormed = true := by
  obtain ⟨f, rfl⟩ : ∃ f, wordOfFields f = w := ⟨_, wordOfFields_fieldsOfWord w⟩
  obtain ⟨hlt, hpattern, hmask⟩ := opcodeMap_row hr
  have hop : f.op.toNat = r.op ↔ f.op = r.fields.op := by
    rw [← BitVec.toNat_inj, OpcodeRow.fields, BitVec.toNat_ofNat, Nat.mod_eq_of_lt (by omega)]
  have hcn (h : f.op = r.fields.op) : f.isCN = r.fields.isCN := by simp only [Fields.isCN, h]
  rw [rowMatches, beq_iff_eq, hpattern, hmask, wordOfFields_and_mask, wordOfFields_inj, maskedFields_iff,
    fieldsOfWord_wordOfFields, Fields.wellFormed_iff]
  constructor
  · rintro ⟨h, hrsv, himm⟩
    exact ⟨hop.2 h, hop.2 h ▸ hlt, hrsv, hcn h ▸ himm⟩
  · rintro ⟨h, -, hrsv, himm⟩
    exact ⟨hop.1 h, hrsv, hcn (hop.1 h) ▸ himm⟩

/-- Settles O3: a row matches the well-formed words of its own opcode. -/
theorem decodeFollowsTheOpcodeMap : Obligations.DecodeFollowsTheOpcodeMap := by
  unfold Obligations.DecodeFollowsTheOpcodeMap
  intro w
  refine ⟨⟨fun h => ?_, fun ⟨r, hr, hm⟩ => ?_⟩, fun r hr hm => ?_, fun r hr r' hr' hm hm' => ?_⟩
  · obtain ⟨i, rfl⟩ := (isLegal_decode_iff w).1 h
    obtain ⟨-, r, hr, -, hm⟩ := fieldsLegal i
    exact ⟨r, hr, hm⟩
  · obtain ⟨-, hf⟩ := (rowMatches_iff hr w).1 hm
    exact (isLegal_decode_iff w).2 ((wellFormed_iff_encode w).1 hf)
  · obtain ⟨hop, hf⟩ := (rowMatches_iff hr w).1 hm
    obtain ⟨i, rfl⟩ := (wellFormed_iff_encode w).1 hf
    refine ⟨i, decode_encode i, ?_⟩
    rw [← hop, fieldsOfWord_encode, extract_imm_encode]
    exact commandOfOp_fieldsOf i
  · obtain ⟨hop, -⟩ := (rowMatches_iff hr w).1 hm
    obtain ⟨hop', -⟩ := (rowMatches_iff hr' w).1 hm'
    exact opcodeMap_op_inj hr hr' (hop.symm.trans hop')

/-! ## The counts -/

/-- R74: the C-N commands. -/
def bareCommands : List Instr := [.nop, .seed, .perturb, .manual, .delay, .run]

/-- R74: the C-I commands, each a function of its operand. -/
def operandCommands : List (Byte → Instr) := [.scale, .next, .setduty, .ramp, .auto]

/-- Every command, with its operand at every value (R75). -/
def allCommands : List Instr :=
  bareCommands ++ operandCommands.flatMap fun c => (FinEnum.toList Byte).map c

theorem mem_allCommands (i : Instr) : i ∈ allCommands := by
  cases i <;> simp [allCommands, bareCommands, operandCommands]

theorem nodup_allCommands : allCommands.Nodup := by
  simp [allCommands, bareCommands, operandCommands, List.nodup_append, List.nodup_map_iff_inj_on,
    FinEnum.nodup_toList, or_imp, forall_and]

/-- R75: 5 C-I commands times 256 operands, plus 6 C-N words. -/
theorem length_allCommands : allCommands.length = 1286 := by
  simp [allCommands, bareCommands, operandCommands, FinEnum.toList]

/-- R71: no two commands have one word. -/
theorem encode_injective : Function.Injective encode := by
  intro i j h
  simpa using (decode_eq_legal_iff (encode j) i).2 h |>.symm

/-- The words outside a list of words, counted. -/
theorem exists_list_compl {l : List Word} (hl : l.Nodup) :
    ∃ l' : List Word, l'.Nodup ∧ l'.length = 65536 - l.length ∧ ∀ w, w ∈ l' ↔ w ∉ l := by
  refine ⟨(l.toFinsetᶜ).toList, Finset.nodup_toList _, ?_, by simp⟩
  rw [Finset.length_toList, Finset.card_compl, List.toFinset_card_of_nodup hl, ← FinEnum.card_eq_fintypeCard,
    FinEnum.card_bitVec]
  rfl

/-- The legal words (R75). -/
def legalWords : List Word := allCommands.map encode

theorem mem_legalWords (w : Word) : w ∈ legalWords ↔ isLegal (decode w) = true := by
  simp [legalWords, isLegal_decode_iff, mem_allCommands]

theorem nodup_legalWords : legalWords.Nodup := nodup_allCommands.map encode_injective

theorem length_legalWords : legalWords.length = 1286 := by
  rw [legalWords, List.length_map, length_allCommands]

/-- R74, R75: a word that passes the three tests is the word of a command. -/
theorem exists_encode_of_tests {w : Word} (hop : (fieldsOfWord w).op.toNat < 0xB)
    (hrsv : (fieldsOfWord w).rsv = 0)
    (himm : ¬((fieldsOfWord w).op.toNat ∈ [0x0, 0x2, 0x4, 0x5, 0x7, 0xA] ∧ (fieldsOfWord w).imm ≠ 0)) :
    ∃ i, encode i = w := by
  refine (wellFormed_iff_encode w).1 ((Fields.wellFormed_iff _).2 ⟨hop, hrsv, fun hcn => ?_⟩)
  by_contra hne
  exact himm ⟨(Fields.isCN_iff _).1 hcn, hne⟩

/-- Settles O4: the three tests are the three rejections, the other words are the commands' own, and these are
counted by the commands. -/
theorem decodingIsTotalAndCounted : Obligations.DecodingIsTotalAndCounted := by
  unfold Obligations.DecodingIsTotalAndCounted
  refine ⟨fun w => ?_, ⟨legalWords, nodup_legalWords, length_legalWords, mem_legalWords⟩, ?_⟩
  · split
    next hop => exact decode_reservedOp hop
    next hop =>
    have hlt : (fieldsOfWord w).op.toNat < 0xB := Nat.lt_of_not_le hop
    split
    next hrsv => exact decode_reservedBits hlt hrsv
    next hrsv =>
    have hzero : (fieldsOfWord w).rsv = 0 := Classical.not_not.1 hrsv
    split
    next himm => exact decode_operandOnCN hlt hzero ((Fields.isCN_iff _).2 himm.1) himm.2
    next himm =>
    obtain ⟨i, rfl⟩ := exists_encode_of_tests hlt hzero himm
    rw [decode_encode, extract_op_encode, extract_imm_encode]
    cases i <;> rfl
  · obtain ⟨l, hl, hlen, hmem⟩ := exists_list_compl nodup_legalWords
    exact ⟨l, hl, by rw [hlen, length_legalWords], fun w => by simp [hmem, mem_legalWords]⟩

end Sys2Proof

namespace Sys2Proof.Machine

/-! ## The assembler -/

/-- Settles O6: the assembler is run on the four lines. -/
theorem pseudoInstructionsExpand : Obligations.PseudoInstructionsExpand := by
  unfold Obligations.PseudoInstructionsExpand
  decide

/-! ## The handshake -/

/-- Settles O7: `acceptCommand` of the state without its strobe, written out. -/
theorem acceptedWordRunsItsCommand : Obligations.AcceptedWordRunsItsCommand := by
  unfold Obligations.AcceptedWordRunsItsCommand
  intro s i hr hb hrun hv hd
  exact step_accept hr ((idleAndReady_iff s).2 ⟨hb, hrun⟩) hv hd

/-- R200: the meaning of a command always answers a next state. -/
theorem exec_next (i : Instr) (s : State) : ∃ t, exec i s = .next t := by
  cases i <;> exact ⟨_, rfl⟩

/-- Settles O9: what a micro-step of acceptance can be, for a command that is not NOP. -/
theorem acceptanceEntersTheCommand : Obligations.AcceptanceEntersTheCommand := by
  unfold Obligations.AcceptanceEntersTheCommand
  intro s i hp hn
  obtain ⟨t, ht⟩ := exec_next i s
  rw [ht]
  obtain ⟨rfl, -⟩ | ⟨rfl, rfl⟩ | ⟨-, hrun, rfl⟩ := micro_accept hp (exec_micro ht)
  · exact absurd rfl hn
  · rfl
  · rw [if_neg hrun]
    rfl

/-- R70, R207: a micro-step leaves the error registers and accepts no word. -/
theorem micro_acceptsNothing {i : Instr} {s t : State} (h : Micro i s t) :
    t.err = s.err ∧ t.errCmd = s.errCmd ∧ t.trace.countP isCmdAccept = s.trace.countP isCmdAccept := by
  cases h <;> simp [applySeed, applyPerturb, applyManual, generate, isCmdAccept]

/-- Settles O11: a CORE with `busy` or `run` set performs a micro-step, and none accepts a word. -/
theorem noAcceptanceWhileNotReady : Obligations.NoAcceptanceWhileNotReady := by
  unfold Obligations.NoAcceptanceWhileNotReady
  intro s t hr hb h
  have hready : idleAndReady s = false := (not_idleAndReady_iff s).2 hb
  have hport : (outputs s).cmdReady = false := by simp [outputs, heldInReset, hready]
  cases step_cases h with
  | reset hrst => simp [hrst] at hr
  | accept _ _ _ hi | illegal _ _ hi | idle _ hi => simp [hready] at hi
  | inProgress i u _ _ _ hm ht =>
    have hcmd := micro_cmd hm
    obtain ⟨herr, herrCmd, htrace⟩ := micro_acceptsNothing hm
    exact ⟨by simp [ht, hcmd], by simp [ht, herr], by simp [ht, herrCmd], by simp [ht, htrace], hport⟩

end Sys2Proof.Machine
end

