-- ==== Sys2Proof/Proofs/Scaler.lean ====
section
/-!
PROOF. Sys2Proof/Proofs/Scaler.lean: the statements of spec/40_scaler.md: the formula (R100), its range,
endpoints, monotonicity and values (R101, R102), its rounding (R103), SCALE (R104), and what the commands of
one micro-step leave unchanged (R104, R115, R138, R170).
-/

namespace Sys2Proof.Machine

/-! ## The formula -/

/-- R100: the product of the formula is largest at `x = 255`. -/
theorem scaleProduct_le (m x : Byte) : x.toNat * (255 - m.toNat) ≤ 255 * (255 - m.toNat) :=
  Nat.mul_le_mul_right _ (Nat.le_of_lt_succ x.isLt)

/-- Settles O28: the value is `scale_toNat`, the bound is that of the product. -/
theorem scaleIsTheSpecsFormula : Obligations.ScaleIsTheSpecsFormula := by
  unfold Obligations.ScaleIsTheSpecsFormula
  intro m x
  have hmul := scaleProduct_le m x
  exact ⟨scale_toNat m x, by omega⟩

/-! ## Range, endpoints, monotonicity, values -/

/-- R102: `scale(0) = PWM_MIN`. -/
@[simp] theorem scale_zero (m : Byte) : scale m 0 = m := by
  refine BitVec.eq_of_toNat_eq ?_
  rw [scale_toNat]
  simp

/-- R102: `scale(255) = 255`. -/
@[simp] theorem scale_255 (m : Byte) : scale m 255 = 255 := by
  refine BitVec.eq_of_toNat_eq ?_
  have hm := m.isLt
  rw [scale_toNat]
  change (255 * (255 - m.toNat) + 127) / 255 + m.toNat = 255
  omega

/-- R102: the scaler is monotone. -/
theorem scale_mono (m : Byte) {a b : Byte} (h : a.toNat ≤ b.toNat) : (scale m a).toNat ≤ (scale m b).toNat := by
  rw [scale_toNat, scale_toNat]
  gcongr

/-- R101: with `PWM_MIN = 0` the scaler is the identity. -/
@[simp] theorem scale_at_zero (x : Byte) : scale 0 x = x := by
  refine BitVec.eq_of_toNat_eq ?_
  rw [scale_toNat]
  change (x.toNat * 255 + 127) / 255 + 0 = x.toNat
  omega

/-- R102: at `PWM_MIN = 62` the scaler takes exactly the values from 62 up: the formula grows by 193/255 at
each `x`, so it passes over no number, and `(255 * j + 65) / 193` is the first `x` at which it gives `62 + j`. -/
theorem exists_scale_62_iff (v : Byte) : (∃ x, scale 62 x = v) ↔ 62 ≤ v.toNat := by
  constructor
  · rintro ⟨x, rfl⟩
    exact pwmMin_le_scale 62 x
  · intro hv
    have hlt := v.isLt
    obtain ⟨x, hx⟩ : ∃ x, x = (255 * (v.toNat - 62) + 65) / 193 := ⟨_, rfl⟩
    have hdiv : (193 * x + 127) / 255 = v.toNat - 62 := (Nat.div_eq_iff (by omega)).2 (by omega)
    have hxlt : x < 256 := by omega
    refine ⟨BitVec.ofNat 8 x, BitVec.eq_of_toNat_eq ?_⟩
    rw [scale_toNat, BitVec.toNat_ofNat, Nat.mod_eq_of_lt hxlt, Nat.mul_comm]
    change (193 * x + 127) / 255 + 62 = v.toNat
    omega

/-- The numbers that fit a byte are told apart by their bytes. -/
theorem injOn_ofNat_byte (lo : Nat) : Set.InjOn (BitVec.ofNat 8) (Finset.Icc lo 255) := by
  intro a ha b hb h
  have hmod := congrArg BitVec.toNat h
  simp only [BitVec.toNat_ofNat] at hmod
  simp only [Finset.coe_Icc, Set.mem_Icc] at ha hb
  omega

/-- R102: the values of the scaler at `PWM_MIN = 62`, as a set. -/
theorem toFinset_scale_62 :
    ((List.range 256).map fun x => scale 62 (BitVec.ofNat 8 x)).toFinset =
      (Finset.Icc 62 255).image (BitVec.ofNat 8) := by
  ext v
  have hv := v.isLt
  have hscale : (∃ n < 256, scale 62 (BitVec.ofNat 8 n) = v) ↔ ∃ x, scale 62 x = v :=
    ⟨fun ⟨n, _, h⟩ => ⟨_, h⟩, fun ⟨x, h⟩ => ⟨x.toNat, x.isLt, by simpa using h⟩⟩
  have himage : (∃ n, (62 ≤ n ∧ n ≤ 255) ∧ BitVec.ofNat 8 n = v) ↔ 62 ≤ v.toNat := by
    constructor
    · rintro ⟨n, ⟨hlo, hhi⟩, rfl⟩
      rw [BitVec.toNat_ofNat]
      omega
    · exact fun h => ⟨v.toNat, ⟨h, by omega⟩, by simp⟩
  simp only [List.mem_toFinset, List.mem_map, List.mem_range, Finset.mem_image, Finset.mem_Icc]
  rw [hscale, himage, exists_scale_62_iff]

/-- Settles O29: the lemmas above; the 194 values are the numbers from 62 to 255. -/
theorem scaleRangeEndpointsAndMonotonicity : Obligations.ScaleRangeEndpointsAndMonotonicity := by
  unfold Obligations.ScaleRangeEndpointsAndMonotonicity
  refine ⟨fun m x => ⟨pwmMin_le_scale m x, Nat.le_of_lt_succ (scale m x).isLt⟩,
    fun m => ⟨scale_zero m, scale_255 m⟩, fun m a b h => scale_mono m h.le, scale_at_zero, ?_, rfl, rfl⟩
  rw [← List.card_toFinset, toFinset_scale_62, Finset.card_image_of_injOn (injOn_ofNat_byte 62), Nat.card_Icc]

/-! ## Rounding -/

/-- R103: with the bias 127, division by 255 rounds to the nearest number: the remainder of `n + 127` lies in
0..254, so the distance lies in -127..127. -/
theorem div_255_rounds (n : Nat) : 2 * (255 * ((n + 127) / 255 : Nat) - n : Int).natAbs < 255 := by
  omega

/-- Settles O30: above `PWM_MIN`, the scaler is the biased division of `div_255_rounds`. -/
theorem scaleRoundsToNearest : Obligations.ScaleRoundsToNearest := by
  unfold Obligations.ScaleRoundsToNearest
  intro m x
  have hm : m.toNat ≤ 255 := Nat.le_of_lt_succ m.isLt
  have hround := div_255_rounds (x.toNat * (255 - m.toNat))
  rw [Nat.cast_mul, Nat.cast_sub hm] at hround
  rwa [scale_toNat, Nat.cast_add, add_sub_cancel_right]

/-! ## SCALE -/

/-- R71: a command's word, with the opcode in bits 15:12 and the operand in bits 7:0. -/
theorem encode_eq_or (i : Instr) : encode i = (opOf i).setWidth 16 <<< 12 ||| (immOf i).setWidth 16 := by
  refine BitVec.eq_of_getLsbD_eq fun k hk => ?_
  have himm (hk : 8 ≤ k) : (immOf i).getLsbD k = false := BitVec.getLsbD_of_ge _ _ hk
  change (opOf i ++ 0#4 ++ immOf i).getLsbD k = _
  simp only [BitVec.getLsbD_append, BitVec.getLsbD_zero, BitVec.getLsbD_or, BitVec.getLsbD_shiftLeft,
    BitVec.getLsbD_setWidth]
  obtain h | ⟨h, h'⟩ | h : k < 8 ∨ (8 ≤ k ∧ k < 12) ∨ 12 ≤ k := by omega
  · simp [h, hk, show k < 12 by omega]
  · simp [h', himm h, show ¬ k < 8 by omega, show k - 8 < 4 by omega]
  · simp [hk, himm (by omega), show ¬ k < 8 by omega, show ¬ k - 8 < 4 by omega, show ¬ k < 12 by omega,
      show k - 12 < 16 by omega, show k - 8 - 4 = k - 12 by omega]

/-- R70: outside RUN a command's last micro-step makes the CORE ready. -/
theorem complete_of_not_run {s : State} (h : s.run = false) :
    complete s = { s with busy := false, pos := .idle } := by
  simp [complete, h]

/-- The micro-step of a command that has one. -/
theorem oneMicroStep_start {effect s : State} (h : s.pos = .start) : oneMicroStep effect s = complete effect := by
  simp [oneMicroStep, h]

/-- Settles O31: SCALE's fields put together, and its one micro-step, which completes. -/
theorem scaleWritesResAlone : Obligations.ScaleWritesResAlone := by
  unfold Obligations.ScaleWritesResAlone
  intro x s
  refine ⟨encode_eq_or (.scale x), fun hp hr => ?_⟩
  have hstep : exec (.scale x) s = .next (complete (writeRes (scale s.build.pwmMin x) s)) :=
    congrArg Host.Outcome.next (oneMicroStep_start hp)
  rw [hstep, complete_of_not_run (by simpa using hr)]
  rfl

/-! ## The commands of one micro-step -/

/-- A command of one micro-step enters or takes it. -/
theorem oneMicroStep_cases (effect s : State) :
    oneMicroStep effect s = enter s ∨ oneMicroStep effect s = complete effect := by
  unfold oneMicroStep
  split
  · exact .inl rfl
  · exact .inr rfl

/-- Settles O58: NOP completes; each of the others enters, or completes with its own effect. -/
theorem singleStepCommandsFrame : Obligations.SingleStepCommandsFrame := by
  unfold Obligations.SingleStepCommandsFrame
  intro i s t h hi
  obtain rfl | ⟨x, rfl⟩ | ⟨e, rfl⟩ | ⟨v, rfl⟩ := hi
  · cases h
    exact ⟨rfl, by simp⟩
  all_goals
    cases h
    obtain ht | ht := oneMicroStep_cases _ s <;> rw [ht] <;> exact ⟨rfl, by simp⟩

end Sys2Proof.Machine
end

