-- ==== Sys2Proof/Proofs/Generator.lean ====
section
/-!
PROOF. Sys2Proof/Proofs/Generator.lean: the statements of spec/41_lcg.md: the recurrence (R110, R113), its full
period (R112), SEED, NEXT and PERTURB (R114-R116), and what the commands that read one sample leave unchanged
(R114, R116, R155, R171).
-/

namespace Sys2Proof.Machine

/-! ## The recurrence -/

/-- R110: the shift and the addition multiply by 5; the wraps change nothing. -/
theorem lcg_toNat (s : Word) (e : Byte) : (lcg s e).toNat = (5 * s.toNat + 0x3333 + e.toNat) % 2 ^ 16 := by
  simp only [lcg, BitVec.ofNat_eq_ofNat, BitVec.toNat_add, BitVec.toNat_shiftLeft, BitVec.toNat_setWidth,
    BitVec.toNat_ofNat]
  omega

/-- R110: with `e = 0`. -/
theorem lcg_zero_toNat (s : Word) : (lcg s 0).toNat = (5 * s.toNat + 0x3333) % 2 ^ 16 := lcg_toNat s 0

/-- R113: `5 * s` has the parity of `s`, and `0x3333` is odd. -/
theorem lcg_zero_bit0 (s : Word) : (lcg s 0).getLsbD 0 = !s.getLsbD 0 := by
  have h : (lcg s 0).toNat % 2 = (s.toNat + 1) % 2 := by
    rw [lcg_zero_toNat]
    omega
  simp only [BitVec.getLsbD, Nat.testBit_zero, h, ← decide_not, decide_eq_decide]
  omega

/-- Settles O32: the two lemmas above. -/
theorem lcgIsTheRecurrence : Obligations.LcgIsTheRecurrence := by
  unfold Obligations.LcgIsTheRecurrence
  exact fun s e => ⟨lcg_toNat s e, lcg_zero_bit0 s⟩

/-! ## The period

With `e = 0`, the number `4 * s + 0x3333` is multiplied by 5 at each step, modulo `2 ^ 18`. It is odd, so the
state returns after `k` steps exactly when `5 ^ k` is 1 modulo `2 ^ 18`, and the powers of 5 have that order
`2 ^ 16` by lifting the exponent. -/

/-- The odd number that a step of the generator multiplies by 5. -/
def lcgScaled (s : Word) : Nat := 4 * s.toNat + 0x3333

/-- R110: `4 * (5 * s + 0x3333) + 0x3333 = 5 * (4 * s + 0x3333)`. -/
theorem lcgScaled_lcg_zero (s : Word) : lcgScaled (lcg s 0) ≡ 5 * lcgScaled s [MOD 2 ^ 18] := by
  simp only [lcgScaled, lcg_zero_toNat, Nat.ModEq]
  omega

theorem lcgScaled_iterate (k : Nat) (s : Word) :
    lcgScaled ((fun x => lcg x 0)^[k] s) ≡ 5 ^ k * lcgScaled s [MOD 2 ^ 18] := by
  induction k with
  | zero => simpa using Nat.ModEq.refl _
  | succ k ih =>
    rw [Function.iterate_succ_apply', pow_succ' 5, mul_assoc]
    exact (lcgScaled_lcg_zero _).trans (ih.mul_left 5)

/-- The scaled number tells the states apart. -/
theorem lcgScaled_modEq_iff {a b : Word} : lcgScaled a ≡ lcgScaled b [MOD 2 ^ 18] ↔ a = b := by
  refine ⟨fun h => BitVec.eq_of_toNat_eq ?_, fun h => h ▸ Nat.ModEq.refl _⟩
  have ha := a.isLt
  have hb := b.isLt
  simp only [lcgScaled, Nat.ModEq] at h
  omega

/-- The scaled number is odd, so it can be cancelled modulo `2 ^ 18`. -/
theorem coprime_lcgScaled (s : Word) : Nat.Coprime (2 ^ 18) (lcgScaled s) := by
  refine Nat.Coprime.pow_left 18 (Nat.coprime_two_left.2 (Nat.odd_iff.2 ?_))
  unfold lcgScaled
  omega

/-- The powers of 5 modulo powers of 2, by lifting the exponent: `5 - 1` holds two factors of 2, and `k` gives
`5 ^ k - 1` as many more as it has. -/
theorem five_pow_modEq_one_iff (j k : Nat) : 5 ^ k ≡ 1 [MOD 2 ^ (j + 2)] ↔ 2 ^ j ∣ k := by
  have hlift : emultiplicity 2 ((5 : Int) ^ k - 1) = (2 : Nat) + emultiplicity 2 (k : Int) := by
    have h4 : emultiplicity 2 ((5 : Int) - 1) = (2 : Nat) := by
      rw [show (5 : Int) - 1 = 2 ^ 2 by decide, emultiplicity_pow_self] <;> decide
    rw [← h4, ← Int.two_pow_sub_pow' k (by decide) (by decide), one_pow]
  rw [Nat.ModEq.comm, Nat.modEq_iff_dvd]
  push_cast
  rw [pow_dvd_iff_le_emultiplicity, hlift, add_comm j, Nat.cast_add,
    ENat.add_le_add_iff_left (ENat.natCast_ne_top 2), ← pow_dvd_iff_le_emultiplicity]
  exact_mod_cast Iff.rfl

/-- R112: the generator is back at `s` exactly at the multiples of 65536. -/
theorem isPeriodicPt_lcg_zero_iff (k : Nat) (s : Word) :
    Function.IsPeriodicPt (fun x => lcg x 0) k s ↔ 2 ^ 16 ∣ k := by
  have hstep : 5 ^ k * lcgScaled s ≡ 1 * lcgScaled s [MOD 2 ^ 18] ↔ 5 ^ k ≡ 1 [MOD 2 ^ 18] :=
    ⟨fun h => h.cancel_right_of_coprime (coprime_lcgScaled s), fun h => h.mul_right _⟩
  calc Function.IsPeriodicPt (fun x => lcg x 0) k s
      ↔ lcgScaled ((fun x => lcg x 0)^[k] s) ≡ lcgScaled s [MOD 2 ^ 18] := lcgScaled_modEq_iff.symm
    _ ↔ 5 ^ k * lcgScaled s ≡ 1 * lcgScaled s [MOD 2 ^ 18] := by
      rw [one_mul]
      exact ⟨(lcgScaled_iterate k s).symm.trans, (lcgScaled_iterate k s).trans⟩
    _ ↔ 2 ^ 16 ∣ k := hstep.trans (five_pow_modEq_one_iff 16 k)

theorem minimalPeriod_lcg_zero (s : Word) : Function.minimalPeriod (fun x => lcg x 0) s = 2 ^ 16 :=
  Nat.dvd_right_iff_eq.1 fun k => by
    rw [← Function.isPeriodicPt_iff_minimalPeriod_dvd, isPeriodicPt_lcg_zero_iff]

/-- R112: the states of one period are as many as there are words, so they are all of them. -/
theorem exists_iterate_lcg_zero (s x : Word) : ∃ k < 2 ^ 16, (fun x => lcg x 0)^[k] s = x := by
  have hinj : Set.InjOn (fun k => (fun x => lcg x 0)^[k] s) (Finset.range (2 ^ 16)) := by
    rw [Finset.coe_range, ← minimalPeriod_lcg_zero s]
    exact Function.iterate_injOn_Iio_minimalPeriod
  have hall : (Finset.range (2 ^ 16)).image (fun k => (fun x => lcg x 0)^[k] s) = Finset.univ := by
    rw [← Finset.card_eq_iff_eq_univ, Finset.card_image_of_injOn hinj, Finset.card_range,
      ← FinEnum.card_eq_fintypeCard, FinEnum.card_bitVec]
  simpa using hall.ge (Finset.mem_univ x)

/-- Settles O33: the period is 65536, and a period passes through every state. -/
theorem lcgHasFullPeriod : Obligations.LcgHasFullPeriod := by
  unfold Obligations.LcgHasFullPeriod
  intro s
  refine ⟨(isPeriodicPt_lcg_zero_iff 65536 s).2 (dvd_refl _), fun k hpos hlt hk => ?_,
    exists_iterate_lcg_zero s⟩
  exact absurd (Nat.le_of_dvd hpos ((isPeriodicPt_lcg_zero_iff k s).1 hk)) (by omega)

/-! ## SEED, NEXT, PERTURB -/

/-- R114: the sample counts 256 times. -/
theorem foldHigh_eq_ofNat (r : Word) (v : Byte) : foldHigh r v = BitVec.ofNat 16 (r.toNat + v.toNat * 256) := by
  refine BitVec.eq_of_toNat_eq ?_
  simp only [foldHigh, BitVec.toNat_add, BitVec.toNat_shiftLeft, BitVec.toNat_setWidth, BitVec.toNat_ofNat]
  omega

/-- R116: the sample counts once. -/
theorem foldLow_eq_ofNat (r : Word) (v : Byte) : foldLow r v = BitVec.ofNat 16 (r.toNat + v.toNat) := by
  refine BitVec.eq_of_toNat_eq ?_
  simp only [foldLow, BitVec.toNat_add, BitVec.toNat_setWidth, BitVec.toNat_ofNat]
  omega

/-- R110, as a word. -/
theorem lcg_eq_ofNat (s : Word) (e : Byte) : lcg s e = BitVec.ofNat 16 (5 * s.toNat + 0x3333 + e.toNat) :=
  BitVec.eq_of_toNat_eq ((lcg_toNat s e).trans (BitVec.toNat_ofNat _ _).symm)

/-- R55: the high byte, as a number. -/
theorem highByte_ofNat (n : Nat) : highByte (BitVec.ofNat 16 n) = BitVec.ofNat 8 (n % 65536 / 256) := by
  refine BitVec.eq_of_toNat_eq ?_
  simp [highByte, Nat.shiftRight_eq_div_pow]

/-- The first micro-step of a command of several. -/
theorem severalMicroSteps_start {first rest s : State} (h : s.pos = .start) :
    severalMicroSteps first rest s = first := by
  simp [severalMicroSteps, h]

/-- The micro-step of a command of several after a read. -/
theorem severalMicroSteps_apply {first rest s : State} {u : SampleUse} {v : Byte} (h : s.pos = .apply u v) :
    severalMicroSteps first rest s = rest := by
  simp [severalMicroSteps, h]

/-- Settles O34: SEED's request, and its addition after the read, which completes. -/
theorem seedFoldsASampleIntoTheHighByte : Obligations.SeedFoldsASampleIntoTheHighByte := by
  unfold Obligations.SeedFoldsASampleIntoTheHighByte
  intro s v hr
  refine ⟨fun hp => congrArg Host.Outcome.next (severalMicroSteps_start hp), fun hp => ?_⟩
  have hstep : exec .seed s = .next (applySeed v s) :=
    congrArg Host.Outcome.next ((severalMicroSteps_apply hp).trans (by simp [seedStep, hp]))
  rw [hstep, applySeed, complete_of_not_run (by simpa using hr), foldHigh_eq_ofNat]
  rfl

/-- Settles O36: PERTURB's request, and its addition after the read, which completes. -/
theorem perturbAddsASample : Obligations.PerturbAddsASample := by
  unfold Obligations.PerturbAddsASample
  intro s v hr
  refine ⟨fun hp => congrArg Host.Outcome.next (severalMicroSteps_start hp), fun hp => ?_⟩
  have hstep : exec .perturb s = .next (applyPerturb v s) :=
    (exec_perturb s).trans
      (congrArg Host.Outcome.next ((severalMicroSteps_apply hp).trans (by simp [perturbStep, hp])))
  rw [hstep, applyPerturb, complete_of_not_run (by simpa using hr), foldLow_eq_ofNat]
  rfl

/-- Settles O35: NEXT's fields put together, and its one micro-step, which completes. -/
theorem nextStepsTheGenerator : Obligations.NextStepsTheGenerator := by
  unfold Obligations.NextStepsTheGenerator
  intro e s
  refine ⟨encode_eq_or (.next e), fun hp hr => ?_⟩
  have hstep : exec (.next e) s =
      .next (complete (writeRes (targetOf s.build.pwmMin (lcg s.rng e)) (writeRng (lcg s.rng e) s))) :=
    congrArg Host.Outcome.next (oneMicroStep_start hp)
  rw [hstep, complete_of_not_run (by simpa using hr), targetOf, lcg_eq_ofNat, highByte_ofNat]
  rfl

/-! ## The commands that read one sample -/

/-- The commands that read one sample run no leg and poll no switch. -/
theorem not_leg_of_sampling {i : Instr} (h : i = .seed ∨ i = .perturb ∨ i = .delay ∨ i = .manual) :
    belongs i .decide = false ∧ belongs i .wait = false ∧ belongs i .count = false ∧
      ∀ t, belongs i (.legStart t) = false := by
  obtain rfl | rfl | rfl | rfl := h <;> simp [belongs, reading]

/-- R155: of the commands that read one sample, DELAY alone waits. -/
theorem eq_delay_of_waits {i : Instr} (h : i = .seed ∨ i = .perturb ∨ i = .delay ∨ i = .manual)
    (hw : waits i = true) : i = .delay := by
  obtain rfl | rfl | rfl | rfl := h <;> simp_all [waits]

/-- Settles O59: none of these commands has a leg's micro-step; the countdown's are DELAY's, the PWM port's is
MANUAL's. -/
theorem samplingCommandsFrame : Obligations.SamplingCommandsFrame := by
  unfold Obligations.SamplingCommandsFrame
  intro i s t h hi
  obtain ⟨hdecide, hwait, hcount, hstart⟩ := not_leg_of_sampling hi
  cases exec_micro h with
  | enterRun | nop | scale | next | setduty | generate | rampSetup | unitManual | unitAuto | poll => simp at hi
  | requestLeg _ hb => simp [hwait] at hb
  | legSetup _ hb => simp [hstart] at hb
  | move _ hb | stay _ hb => simp [hdecide] at hb
  | countOn _ hb | legEnd _ hb => simp [hcount] at hb
  | arm _ hw | tickOn _ hw | tickEnd _ hw | tickEndLeg _ hw =>
    obtain rfl := eq_delay_of_waits hi hw
    exact ⟨rfl, by simp⟩
  | applySeed _ hs =>
    obtain rfl : i = .seed := hs.resolve_right (by rintro rfl; simp at hi)
    exact ⟨rfl, by simp [applySeed]⟩
  | applyPerturb => exact ⟨rfl, by simp [applyPerturb]⟩
  | applyManual _ hm =>
    obtain rfl : i = .manual := hm.resolve_right (by rintro rfl; simp at hi)
    exact ⟨rfl, by simp [applyManual]⟩
  | _ => exact ⟨rfl, by simp⟩

end Sys2Proof.Machine
end

