-- ==== Sys2Proof/Proofs/Ramp.lean ====
section
/-!
PROOF. Sys2Proof/Proofs/Ramp.lean: the statements of spec/42_ramp.md: SETDUTY (R138), the micro-steps of a ramp
leg (R131, R132) and their bounds (R134, R135), the schedule of its moves (R136), and the run of a whole leg
(R133, R137, R139).
-/

namespace Sys2Proof.Machine

/-! ## The micro-steps of a leg -/

/-- A ramp leg is in no command's acceptance or first micro-step. -/
theorem severalMicroSteps_inLeg {first rest s : State} (hl : inLeg s.pos = true) :
    severalMicroSteps first rest s = rest := by
  unfold severalMicroSteps
  split <;> simp_all [inLeg]

/-- R172: once its leg is set up, the auto unit is the leg. -/
theorem autoStep_inLeg {s : State} (hl : inLeg s.pos = true) : autoStep s = legStep s := by
  unfold autoStep
  split <;> simp_all [inLeg]

/-- R173: inside a leg, RUN is in its auto unit. -/
theorem runStep_inLeg {s : State} (hl : inLeg s.pos = true) : runStep s = autoStep s := by
  unfold runStep
  split <;> simp_all [inLeg]

/-- R131: inside a ramp leg RAMP, AUTO and RUN do the same. -/
theorem exec_inLeg {i : Instr} {s : State} (hi : belongs i .decide = true) (hl : inLeg s.pos = true) :
    exec i s = .next (legStep s) := by
  obtain ⟨t, rfl⟩ | ⟨e, rfl⟩ | rfl := leg_command hi
  · exact congrArg Host.Outcome.next (severalMicroSteps_inLeg hl)
  · exact congrArg Host.Outcome.next ((severalMicroSteps_inLeg hl).trans (autoStep_inLeg hl))
  · rw [← autoStep_inLeg hl, ← runStep_inLeg hl]
    refine congrArg Host.Outcome.next ?_
    split <;> simp_all [inLeg]

theorem exec_decide {i : Instr} {s : State} (hi : belongs i .decide = true) (hp : s.pos = .decide) :
    exec i s = .next (decisionStep s) := by
  rw [exec_inLeg hi (by rw [hp]; rfl), legStep, hp]

theorem exec_wait {i : Instr} {s : State} (hi : belongs i .decide = true) (hp : s.pos = .wait) :
    exec i s = .next (request (.wait .leg) s) := by
  rw [exec_inLeg hi (by rw [hp]; rfl), legStep, hp]

theorem exec_count {i : Instr} {s : State} (hi : belongs i .decide = true) (hp : s.pos = .count) :
    exec i s = .next (countStep s) := by
  rw [exec_inLeg hi (by rw [hp]; rfl), legStep, hp]

/-- R155: the one wait outside a leg is DELAY's. -/
theorem eq_delay_of_belongs_tick {i : Instr} (hi : belongs i (.tick .command) = true) : i = .delay := by
  revert hi
  cases i <;> simp [belongs, reading, inLeg]

/-- R150: after its read, a wait is the same in DELAY and in a leg. -/
theorem exec_waitStep {i : Instr} {w : WaitOf} {s : State} (hi : belongs i (.tick w) = true)
    (hp : s.pos = .tick w ∨ ∃ v, s.pos = .apply (.wait w) v) : exec i s = .next (waitStep s) := by
  cases w with
  | command =>
    obtain rfl := eq_delay_of_belongs_tick hi
    refine congrArg Host.Outcome.next ?_
    obtain hp | ⟨v, hp⟩ := hp
    · simp [severalMicroSteps, hp]
    · exact severalMicroSteps_apply hp
  | leg =>
    have hd : belongs i .decide = true := belongs_of_inLeg hi rfl rfl
    obtain hp | ⟨v, hp⟩ := hp <;> rw [exec_inLeg hd (by rw [hp]; rfl), legStep, hp]

theorem exec_apply_wait {i : Instr} {w : WaitOf} {v : Byte} {s : State} (hi : belongs i (.tick w) = true)
    (hp : s.pos = .apply (.wait w) v) : exec i s = .next (armWait w v s) := by
  rw [exec_waitStep hi (.inr ⟨v, hp⟩), waitStep, hp]

theorem exec_tick {i : Instr} {w : WaitOf} {s : State} (hi : belongs i (.tick w) = true)
    (hp : s.pos = .tick w) : exec i s = .next (tickStep w s) := by
  rw [exec_waitStep hi (.inl hp), waitStep, hp]

/-! ## SETDUTY -/

/-- Settles O38: SETDUTY's fields put together, and its one micro-step, which completes. -/
theorem setdutyWritesAndStrobes : Obligations.SetdutyWritesAndStrobes := by
  unfold Obligations.SetdutyWritesAndStrobes
  intro v s
  refine ⟨encode_eq_or (.setduty v), fun hp hr => ?_⟩
  have hstep : exec (.setduty v) s = .next (complete (setDuty v s)) :=
    congrArg Host.Outcome.next (oneMicroStep_start hp)
  rw [hstep, complete_of_not_run (by simpa using hr)]
  rfl

/-- R131, R133: the set-up of a leg, with its direction as a comparison. -/
theorem legSetup_eq (t : Byte) (s : State) :
    legSetup t s =
      { s with
        tgt := t, dir := decide (t.toNat < s.duty.toNat),
        mag := BitVec.ofNat 10 (2 * ((t.toNat : Int) - s.duty.toNat).natAbs),
        acc := BitVec.ofInt 16 (-255), stepsLeft := 255, pos := .decide } := by
  have hdir : legDir s.duty t = decide (t.toNat < s.duty.toNat) := by
    rw [Bool.eq_iff_iff, legDir_iff, decide_eq_true_eq]
  rw [← hdir]
  rfl

/-- R172, R173: AUTO and RUN, with a target, set up a leg to it. -/
theorem exec_legStart {i : Instr} {t : Byte} {s : State} (hi : belongs i (.legStart t) = true)
    (hp : s.pos = .legStart t) : exec i s = .next (legSetup t s) := by
  have hauto : autoStep s = legSetup t s := by simp [autoStep, hp]
  obtain ⟨x, rfl⟩ | ⟨e, rfl⟩ | rfl := leg_command (belongs_decide_of_legStart hi)
  · simp [belongs, inLeg] at hi
  · simp [exec, execAuto, severalMicroSteps, hp, hauto]
  · simp [exec, execRun, runStep, hp, hauto]

/-- Settles O39: each of the three commands sets the leg up by `legSetup`, whose name is the model's. -/
theorem legSetup_spec : Obligations.LegSetup := by
  unfold Obligations.LegSetup
  intro t e s
  constructor
  · intro hp
    rw [← legSetup_eq]
    exact congrArg Host.Outcome.next (severalMicroSteps_start hp)
  · intro t' hp i hi
    rw [← legSetup_eq]
    exact exec_legStart (by obtain rfl | rfl := hi <;> rfl) hp

/-- Settles O40: a leg's decision step moves one unit or not at all. -/
theorem decisionStepMovesAtMostOneUnit : Obligations.DecisionStepMovesAtMostOneUnit := by
  unfold Obligations.DecisionStepMovesAtMostOneUnit
  intro i s hi hp
  rw [exec_decide hi hp]
  obtain ⟨hm, he⟩ | ⟨hm, he⟩ := decisionStep_cases s
  · exact (congrArg Host.Outcome.next he).trans (if_pos ((legMoves_iff s).1 hm)).symm
  · exact (congrArg Host.Outcome.next he).trans
      (if_neg fun hsum => by simp [(legMoves_iff s).2 hsum] at hm).symm

/-- R131: a count that leaves steps leads to the next decision. -/
theorem countStep_goesOn {s : State} (h : s.stepsLeft ≠ 1) :
    countStep s = { s with stepsLeft := s.stepsLeft - 1, pos := .decide } :=
  ((countStep_cases s).resolve_left fun hc => h hc.1).2

/-- R131: the last count ends the leg. -/
theorem countStep_ends {s : State} (h : s.stepsLeft = 1) : countStep s = complete { s with stepsLeft := 0 } :=
  ((countStep_cases s).resolve_right fun hc => hc.1 h).2

/-- Settles O41: the request, and the two outcomes of the count, the last one outside RUN or inside. -/
theorem legLoopCountsItsSteps : Obligations.LegLoopCountsItsSteps := by
  unfold Obligations.LegLoopCountsItsSteps
  intro i s hi
  have hd : belongs i .decide = true := belongs_of_inLeg hi rfl rfl
  refine ⟨exec_wait hd, fun hp hl => ?_, fun hp hl hr => ?_, fun hp hl hr => ?_⟩
  · rw [exec_count hd hp, countStep_goesOn hl]
  · rw [exec_count hd hp, countStep_ends hl, complete_of_not_run (by exact hr)]
  · rw [exec_count hd hp, countStep_ends hl]
    simp [complete, hr]

/-! ## The bounds of a leg -/

/-- R134, R135: at the last count of a leg nothing is left of its distance, and `acc` is back where it began. -/
theorem LegInv.lastCount {s : State} (h : LegInv s) (hp : s.pos = .count) (hl : s.stepsLeft = 1) :
    s.acc.toInt = -255 ∧ distanceLeft s = 0 := by
  have hbal := h.balance
  rw [decisionsLeft_after_decide (by simp [hp]), hl] at hbal
  have := h.acc_low
  have := h.acc_high
  simp at hbal
  omega

/-- Settles O42: the invariant of the leg bounds `acc` before and after the step, and fixes it at the end. -/
theorem accumulatorStaysInBounds : Obligations.AccumulatorStaysInBounds := by
  unfold Obligations.AccumulatorStaysInBounds
  constructor
  · intro i s t hi hp h hx
    have hleg := h.leg (by rw [hp]; rfl)
    have ht : inLeg t.pos = true := by
      rw [exec_decide hi hp] at hx
      obtain rfl : decisionStep s = t := by simpa using hx
      obtain ⟨-, he⟩ | ⟨-, he⟩ := decisionStep_cases s <;> rw [he] <;> rfl
    have hleg' := micro_legInv h.leg h.ranges (exec_micro hx) ht
    have := hleg.acc_low
    have := hleg.acc_high
    have := h.ranges.mag_high
    exact ⟨hleg.accSum_toInt h.ranges, by omega, by omega, hleg'.acc_low, hleg'.acc_high⟩
  · intro s h hp hl
    exact ((h.leg (by rw [hp]; rfl)).lastCount hp hl).1

/-- Settles O43: a move has a unit of distance left to take, and at the last count none is left. -/
theorem movesNeverWrapAndReachTheTarget : Obligations.MovesNeverWrapAndReachTheTarget := by
  unfold Obligations.MovesNeverWrapAndReachTheTarget
  constructor
  · intro s h hp hsum
    have hd := (h.leg (by rw [hp]; rfl)).distance_pos h.ranges hp ((legMoves_iff s).2 hsum)
    have hmove := moveOne_toNat hd
    unfold distanceLeft at hd
    unfold moveOne at hmove
    cases hdir : s.dir with
    | true =>
      rw [hdir, if_pos rfl] at hd
      rw [hdir, if_pos rfl, if_pos rfl] at hmove
      rw [if_pos rfl]
      omega
    | false =>
      rw [hdir, if_neg (by simp)] at hd
      rw [hdir, if_neg (by simp), if_neg (by simp)] at hmove
      rw [if_neg (by simp)]
      omega
  · intro s h hp hl
    have hd := ((h.leg (by rw [hp]; rfl)).lastCount hp hl).2
    unfold distanceLeft at hd
    refine BitVec.eq_of_toNat_eq ?_
    split at hd <;> omega

/-! ## The frame -/

/-- R200, R207: no micro-step of a command writes `err` or `err_cmd`, or touches the coming input levels. -/
theorem micro_err_levels {i : Instr} {s t : State} (h : Micro i s t) :
    t.err = s.err ∧ t.errCmd = s.errCmd ∧ t.script = s.script ∧ t.time = s.time := by
  cases h <;> simp [applySeed, applyPerturb, applyManual, generate]

/-- R21: of the commands, RUN alone writes `mode` and `run`. -/
theorem micro_mode_run {i : Instr} {s t : State} (h : Micro i s t) (hi : i ≠ .run) :
    t.mode = s.mode ∧ t.run = s.run := by
  cases h <;> simp_all [applySeed, applyPerturb, applyManual, generate]

/-- Settles O60: the frames of the micro-steps; RAMP is among the writers neither of `rng` nor of `res`. -/
theorem legCommandsFrame : Obligations.LegCommandsFrame := by
  unfold Obligations.LegCommandsFrame
  intro i s t h _
  have hm := exec_micro h
  obtain ⟨herr, herrCmd, hscript, htime⟩ := micro_err_levels hm
  refine ⟨herr, herrCmd, micro_cmd hm, micro_build hm, hscript, htime, micro_mode_run hm, ?_⟩
  rintro ⟨x, rfl⟩
  exact ⟨by by_contra hne; simpa using micro_rng hm hne, by by_contra hne; simpa using micro_res hm hne⟩

/-! ## The schedule of the moves -/

/-- R136: the move that comes after `j` others has happened by decision step `k` exactly when `j` is below the
closed form. -/
theorem moveStep_le_iff {d j k : Nat} (hd : 1 ≤ d) :
    moveStep d (j + 1) ≤ k ↔ j < (2 * d * k + 255) / 510 := by
  rw [moveStep, Nat.add_sub_cancel, Nat.div_le_iff_le_mul (by omega), Nat.lt_iff_add_one_le,
    Nat.le_div_iff_mul_le (by omega), Nat.mul_comm k]
  omega

theorem countP_lt_range (d n : Nat) : (List.range d).countP (fun j => decide (j < n)) = min d n := by
  induction d with
  | zero => simp
  | succ d ih =>
    rw [List.range_succ, List.countP_append, ih, List.countP_singleton]
    split <;> simp_all <;> omega

/-- R135: the closed form counts no more moves than the leg has. -/
theorem schedule_le (d : Nat) {k : Nat} (hk : k ≤ 255) : (2 * d * k + 255) / 510 ≤ d := by
  have := Nat.mul_le_mul_left (2 * d) hk
  omega

/-- R136: the moves of the first `k` decision steps, in closed form. -/
theorem movesUpTo_eq (d : Nat) {k : Nat} (hk : k ≤ 255) : movesUpTo d k = (2 * d * k + 255) / 510 := by
  obtain rfl | hd := Nat.eq_zero_or_pos d
  · simp [movesUpTo]
  · calc movesUpTo d k = (List.range d).countP fun j => decide (j < (2 * d * k + 255) / 510) :=
          List.countP_congr fun j _ => by simpa using moveStep_le_iff hd
      _ = (2 * d * k + 255) / 510 := by rw [countP_lt_range, min_eq_right (schedule_le d hk)]

theorem movesUpTo_zero (d : Nat) : movesUpTo d 0 = 0 := by
  rw [movesUpTo_eq d (by omega)]
  omega

/-- R135: a leg makes all its moves. -/
theorem movesUpTo_255 (d : Nat) : movesUpTo d 255 = d := by
  rw [movesUpTo_eq d le_rfl]
  omega

theorem movesUpTo_le (d : Nat) {k : Nat} (hk : k ≤ 255) : movesUpTo d k ≤ d :=
  movesUpTo_eq d hk ▸ schedule_le d hk

/-- R132: at most one move happens in a decision step. -/
theorem movesUpTo_succ_le {d k : Nat} (hd : d ≤ 255) (hk : k < 255) :
    movesUpTo d k ≤ movesUpTo d (k + 1) ∧ movesUpTo d (k + 1) ≤ movesUpTo d k + 1 := by
  rw [movesUpTo_eq d hk.le, movesUpTo_eq d hk, Nat.mul_succ]
  omega

/-- R136: decision step `k + 1` moves `duty` exactly when the count of the moves rises in it. -/
theorem movesAt_iff {d k : Nat} (hk : k < 255) :
    movesAt d (k + 1) = true ↔ movesUpTo d k < movesUpTo d (k + 1) := by
  obtain rfl | hd := Nat.eq_zero_or_pos d
  · simp [movesAt, movesUpTo]
  have at_iff (j : Nat) : moveStep d (j + 1) = k + 1 ↔ movesUpTo d k ≤ j ∧ j < movesUpTo d (k + 1) := by
    rw [movesUpTo_eq d hk.le, movesUpTo_eq d hk, ← moveStep_le_iff hd, ← not_lt, ← moveStep_le_iff hd]
    omega
  simp only [movesAt, List.any_eq_true, List.mem_range, beq_iff_eq, at_iff]
  constructor
  · rintro ⟨j, -, hlow, hhigh⟩
    omega
  · intro h
    exact ⟨movesUpTo d k, h.trans_le (movesUpTo_le d hk), le_rfl, h⟩

/-- R136: what a decision step adds to the count of the moves. -/
theorem movesUpTo_succ {d k : Nat} (hd : d ≤ 255) (hk : k < 255) :
    movesUpTo d (k + 1) = movesUpTo d k + if movesAt d (k + 1) then 1 else 0 := by
  obtain ⟨hlow, hhigh⟩ := movesUpTo_succ_le hd hk
  by_cases hm : movesAt d (k + 1) = true
  · have := (movesAt_iff hk).1 hm
    rw [if_pos hm]
    omega
  · have := mt (movesAt_iff hk).2 hm
    rw [if_neg hm]
    omega

/-- R136: within 255 units of distance, two moves are at least one decision step apart. -/
theorem moveStep_lt_succ {d j : Nat} (hd : 1 ≤ d) (hd' : d ≤ 255) (hj : 1 ≤ j) :
    moveStep d j < moveStep d (j + 1) :=
  calc moveStep d j < moveStep d j + 1 := Nat.lt_succ_self _
    _ = (255 + 510 * (j - 1) + (2 * d - 1) + 2 * d) / (2 * d) := (Nat.add_div_right _ (by omega)).symm
    _ ≤ moveStep d (j + 1) := Nat.div_le_div_right (by omega)

/-- Settles O46: the closed form, and where the ceiling of R136 lies. -/
theorem movesAreSpreadEvenly : Obligations.MovesAreSpreadEvenly := by
  unfold Obligations.MovesAreSpreadEvenly
  intro d k hd hd' hk
  refine ⟨movesUpTo_eq d hk, fun j hj hjd => ⟨Nat.div_pos (by omega) (by omega), ?_⟩,
    fun j hj _ => moveStep_lt_succ hd hd' hj⟩
  obtain ⟨m, rfl⟩ := Nat.exists_eq_add_of_le' hj
  rw [moveStep_le_iff hd]
  omega

/-! ## The values written on the way -/

theorem legDistance_le (c t : Byte) : legDistance c t ≤ 255 := by
  have := c.isLt
  have := t.isLt
  simp only [legDistance, legDelta]
  omega

/-- R150: a wait writes no `duty`. -/
theorem filterMap_dutyWritten_waitEvents (b : Build) (v : Byte) :
    (waitEvents b v).filterMap dutyWritten = [] := by
  simp [waitEvents, dutyWritten]

/-- R137: a decision step writes its move, if it moves. -/
theorem filterMap_dutyWritten_legStepEvents (b : Build) (c t : Byte) (k : Nat) (v : Byte) :
    (legStepEvents b c t k v).filterMap dutyWritten =
      if movesAt (legDistance c t) k then [dutyAfterMoves c t (movesUpTo (legDistance c t) k)] else [] := by
  rw [legStepEvents, List.filterMap_append, filterMap_dutyWritten_waitEvents, List.append_nil]
  split <;> simp [dutyWritten]

/-- R135: the decision steps after the first `k` write the values of the moves that are left. -/
theorem filterMap_dutyWritten_legEventsFrom (b : Build) (c t : Byte) (samples : List Byte) (k : Nat)
    (h : k + samples.length = 255) :
    (legEventsFrom b c t (k + 1) samples).filterMap dutyWritten =
      (List.range' (movesUpTo (legDistance c t) k + 1)
        (legDistance c t - movesUpTo (legDistance c t) k)).map (dutyAfterMoves c t) := by
  induction samples generalizing k with
  | nil =>
    obtain rfl : k = 255 := by simpa using h
    simp [legEventsFrom, movesUpTo_255]
  | cons v rest ih =>
    have hk : k < 255 := by simp at h; omega
    have hsucc := movesUpTo_succ (legDistance_le c t) hk
    have hle := movesUpTo_le (legDistance c t) (k := k + 1) hk
    rw [legEventsFrom, List.filterMap_append, filterMap_dutyWritten_legStepEvents,
      ih (k + 1) (by simp at h; omega)]
    by_cases hm : movesAt (legDistance c t) (k + 1) = true
    · rw [if_pos hm] at hsucc ⊢
      rw [show legDistance c t - movesUpTo (legDistance c t) k =
        legDistance c t - movesUpTo (legDistance c t) (k + 1) + 1 by omega, List.range'_succ, hsucc]
      rfl
    · rw [if_neg hm] at hsucc ⊢
      rw [hsucc]
      rfl

/-- Settles O45: before its first decision step a leg has all its moves left. -/
theorem legEventsMoveOneUnitAtATime : Obligations.LegEventsMoveOneUnitAtATime := by
  unfold Obligations.LegEventsMoveOneUnitAtATime
  intro b c t samples h
  have hall := filterMap_dutyWritten_legEventsFrom b c t samples 0 (by omega)
  rw [movesUpTo_zero, Nat.sub_zero, Nat.zero_add, List.range'_eq_map_range, List.map_map] at hall
  rw [legEvents, hall]
  simp [Function.comp_def, dutyAfterMoves, Nat.add_comm]

/-! ## The coming inputs -/

theorem mem_take_of_mem_take_drop {m n : Nat} {l : List Pins} {p : Pins} (h : p ∈ (l.drop m).take n) :
    p ∈ l.take (m + n) := by
  rw [List.take_drop] at h
  exact List.mem_of_mem_drop h

theorem NoReset.mono {m n : Nat} {s : State} (h : NoReset m s) (hle : n ≤ m) : NoReset n s :=
  ⟨hle.trans h.1, fun p hp => h.2 p (List.take_subset_take_left _ hle hp)⟩

theorem Answering.mono {m n : Nat} {s : State} (h : Answering m s) (hle : n ≤ m) : Answering n s :=
  ⟨h.1.mono hle, fun p hp => h.2 p (List.take_subset_take_left _ hle hp)⟩

/-- The levels that are left when the first `m` have been used. -/
theorem NoReset.drop {m n : Nat} {s u : State} (h : NoReset (m + n) s) (hu : u.script = s.script.drop m) :
    NoReset n u := by
  obtain ⟨hlen, hrst⟩ := h
  refine ⟨?_, fun p hp => hrst p (mem_take_of_mem_take_drop (hu ▸ hp))⟩
  rw [hu, List.length_drop]
  omega

theorem Answering.drop {m n : Nat} {s u : State} (h : Answering (m + n) s)
    (hu : u.script = s.script.drop m) : Answering n u :=
  ⟨h.1.drop hu, fun p hp => h.2 p (mem_take_of_mem_take_drop (hu ▸ hp))⟩

/-- The levels of a step that are fixed are those at the head of the script. -/
theorem NoReset.pinsOf_mem {n : Nat} {s : State} (h : NoReset (n + 1) s) :
    pinsOf s ∈ s.script.take (n + 1) := by
  cases hs : s.script with
  | nil => simp [NoReset, hs] at h
  | cons p rest => simp [pinsOf_cons hs]

theorem NoReset.rst {n : Nat} {s : State} (h : NoReset (n + 1) s) : (pinsOf s).rst = false :=
  h.2 _ h.pinsOf_mem

theorem Answering.smpAck {n : Nat} {s : State} (h : Answering (n + 1) s) : (pinsOf s).smpAck = true :=
  h.2 _ h.1.pinsOf_mem

/-! ## Runs of a command in progress -/

theorem run_succ {M : Host.Core} {s u : M.State} (n : Nat) (h : M.step s = .next u) :
    M.run (n + 1) s = M.run n u := by
  simp [Host.Core.run, h]

theorem run_add {M : Host.Core} {m : Nat} {s u : M.State} (n : Nat) (h : M.run m s = .next u) :
    M.run (m + n) s = M.run n u := by
  induction m generalizing s with
  | zero =>
    obtain rfl : s = u := by simpa [Host.Core.run] using h
    rw [Nat.zero_add]
  | succ m ih =>
    rw [Nat.succ_add]
    cases hst : M.step s with
    | next x =>
      rw [run_succ _ hst] at h ⊢
      exact ih h
    | fault r | refused r => simp [Host.Core.run, hst] at h

/-- The registers that the micro-steps of a leg and of a wait leave alone. -/
def unitRegisters (s : State) : Word × Byte × Bool × Bool × Bool × Bool × Word × Word × Build :=
  (s.rng, s.res, s.mode, s.run, s.busy, s.err, s.errCmd, s.cmd, s.build)

/-- The registers that the micro-steps of a wait leave alone as well: the leg's, and the PWM port's. -/
def waitRegisters (s : State) : (Byte × Byte × BitVec 16 × Bool × BitVec 10 × BitVec 8) × Byte :=
  (legRegisters s, s.pwmReg)

/-- The CORE performs the command `i` (R31). -/
structure Performs (i : Instr) (s : State) : Prop where
  busy : s.busy = true
  decoded : decode s.cmd = .legal i

/-- `n` steps lead from `s` to `u`, inside one leg or wait: they use up `n` levels, emit `es`, in order, and
leave the command in progress and the other unit registers alone. -/
structure Runs (n : Nat) (s u : State) (es : List Event) : Prop where
  run : Host.Core.run core n s = .next u
  script : u.script = s.script.drop n
  trace : u.trace = es.reverse ++ s.trace
  kept : unitRegisters u = unitRegisters s

theorem Runs.build {n : Nat} {s u : State} {es : List Event} (h : Runs n s u es) : u.build = s.build := by
  have hk := h.kept
  simp only [unitRegisters, Prod.mk.injEq] at hk
  simp [hk]

theorem Runs.performs {n : Nat} {i : Instr} {s u : State} {es : List Event} (h : Runs n s u es)
    (hs : Performs i s) : Performs i u := by
  have hk := h.kept
  simp only [unitRegisters, Prod.mk.injEq] at hk
  obtain ⟨-, -, -, -, hbusy, -, -, hcmd, -⟩ := hk
  exact ⟨hbusy ▸ hs.busy, hcmd ▸ hs.decoded⟩

theorem Runs.refl (s : State) : Runs 0 s s [] := ⟨rfl, rfl, rfl, rfl⟩

theorem Runs.trans {m n : Nat} {s u w : State} {es fs : List Event} (h : Runs m s u es) (h' : Runs n u w fs) :
    Runs (m + n) s w (es ++ fs) where
  run := (run_add (M := core) n h.run).trans h'.run
  script := by rw [h'.script, h.script, List.drop_drop]
  trace := by rw [h'.trace, h.trace, List.reverse_append, List.append_assoc]
  kept := h'.kept.trans h.kept

/-- R31: a step of the command in progress, from its meaning. -/
theorem Performs.step {i : Instr} {s t : State} (h : Performs i s) (hr : (pinsOf s).rst = false)
    (hx : exec i (quiet s) = .next t) : step s = .next (advance t) := by
  rw [step_inProgress hr ((not_idleAndReady_iff s).2 (.inl h.busy)) h.decoded, hx]
  rfl

/-- One step inside a leg or a wait. -/
theorem Performs.runs {i : Instr} {s t : State} {es : List Event} (h : Performs i s)
    (hr : (pinsOf s).rst = false) (hx : exec i (quiet s) = .next t) (ht : t.trace = es.reverse ++ s.trace)
    (hk : unitRegisters t = unitRegisters s) : Runs 1 s (advance t) es where
  run := run_succ (M := core) 0 (h.step hr hx)
  script := by
    obtain ⟨-, -, hscript, -⟩ := micro_err_levels (exec_micro hx)
    simp [hscript]
  trace := ht
  kept := hk

/-! ## The run of a wait -/

/-- R150: inside `ReadInput()` with an answer, a wait latches the sample. -/
theorem runs_latch {i : Instr} {u : SampleUse} {s : State} (hi : belongs i (.await u) = true)
    (h : Performs i s) (hr : (pinsOf s).rst = false) (hp : s.pos = .await u) (hq : s.smpReq = true)
    (ha : (pinsOf s).smpAck = true) :
    Runs 1 s (advance (latch u (pinsOf s).smpData (quiet s))) [.sampleRead (pinsOf s).smpData] :=
  h.runs hr ((exec_await hi (s := quiet s) hp).trans (congrArg _ (awaitSample_answered hq ha))) rfl rfl

theorem runs_armWait {i : Instr} {w : WaitOf} {v : Byte} {s : State} (hi : belongs i (.tick w) = true)
    (h : Performs i s) (hr : (pinsOf s).rst = false) (hp : s.pos = .apply (.wait w) v) :
    Runs 1 s (advance (armWait w v (quiet s))) [] :=
  h.runs hr (exec_apply_wait hi (s := quiet s) hp) rfl rfl

/-- R151: a tick that does not end the wait. -/
theorem runs_tickOn {i : Instr} {w : WaitOf} {s : State} (hi : belongs i (.tick w) = true)
    (h : Performs i s) (hr : (pinsOf s).rst = false) (hp : s.pos = .tick w) (hw : waitEnds s = false) :
    Runs 1 s (advance (emit .tick { quiet s with dlyCnt := dlyNext s })) [.tick] := by
  have ht : tickStep w (quiet s) = emit .tick { quiet s with dlyCnt := dlyNext s } :=
    if_neg (by rw [show waitEnds (quiet s) = waitEnds s from rfl, hw]; simp)
  exact h.runs hr ((exec_tick hi (s := quiet s) hp).trans (congrArg _ ht)) rfl rfl

/-- R151, R152: the ticks before the last one: each takes `dly_units` from `dly_cnt`. -/
theorem exists_runs_ticks {i : Instr} {w : WaitOf} (hi : belongs i (.tick w) = true) (q : Nat) {r : Nat}
    {s : State} (h : Performs i s) (hp : s.pos = .tick w) (hn : NoReset q s) (hu : s.dlyUnits.toNat ≤ 510)
    (hc : s.dlyCnt.toInt = s.dlyUnits.toNat * q + r) (hle : s.dlyUnits.toNat * q + r ≤ 32767) :
    ∃ u, Runs q s u (List.replicate q .tick) ∧ u.pos = .tick w ∧ u.dlyUnits = s.dlyUnits ∧
      u.dlyCnt.toInt = r ∧ waitRegisters u = waitRegisters s := by
  induction q generalizing s with
  | zero => exact ⟨s, .refl s, hp, rfl, by simpa using hc, rfl⟩
  | succ q ih =>
    rw [Nat.mul_succ] at hle
    have hnext : (dlyNext s).toInt = s.dlyUnits.toNat * q + r := by
      rw [Nat.cast_succ, mul_add_one] at hc
      rw [dlyNext_toInt (by omega) (by omega) hu]
      omega
    have hw : waitEnds s = false := by
      rw [← Bool.not_eq_true, waitEnds_iff, hnext]
      omega
    have h1 := runs_tickOn hi h hn.rst hp hw
    obtain ⟨u, hruns, hpos, hunits, hcnt, hkept⟩ :=
      ih (h1.performs h) hp ((Nat.add_comm q 1 ▸ hn).drop h1.script) hu hnext (by simp; omega)
    have hall := h1.trans hruns
    rw [Nat.add_comm] at hall
    exact ⟨u, hall, hpos, hunits, hcnt, hkept⟩

/-- R150: the answered read of a wait, and the statements between it and the first tick. -/
theorem exists_runs_arm {i : Instr} {w : WaitOf} {s : State} (hi : belongs i (.tick w) = true)
    (h : Performs i s) (hp : s.pos = .await (.wait w)) (hq : s.smpReq = true)
    (ha : (pinsOf s).smpAck = true) (hn : NoReset 2 s) :
    ∃ u, Runs 2 s u [.sampleRead (pinsOf s).smpData] ∧ u.pos = .tick w ∧
      u.dlyUnits.toNat = (pinsOf s).smpData.toNat + s.build.delayOffset.toNat ∧
      u.dlyCnt.toInt = s.build.delayBudget.toNat ∧ waitRegisters u = waitRegisters s := by
  have hown : belongs i (.await (.wait w)) = true := by
    rwa [← belongs_apply _ _ (pinsOf s).smpData, ← belongs_tick]
  have h1 := runs_latch hown h hn.rst hp hq ha
  have h2 := runs_armWait hi (h1.performs h) (NoReset.drop (m := 1) (n := 1) hn h1.script).rst rfl
  exact ⟨_, h1.trans h2, rfl, by simp [delayUnits_toNat],
    by simp only [advance_fields, armWait_fields, quiet_fields, latch_fields, budget_toInt],
    by simp [waitRegisters, legRegisters]⟩

/-- R150, R152: a wait, from its answered read to its last tick, which ends it. -/
theorem exists_runs_wait {i : Instr} {w : WaitOf} {s : State} {du : Nat} (hi : belongs i (.tick w) = true)
    (h : Performs i s) (hp : s.pos = .await (.wait w)) (hq : s.smpReq = true)
    (ha : (pinsOf s).smpAck = true) (hdu : (pinsOf s).smpData.toNat + s.build.delayOffset.toNat = du)
    (hn : NoReset (2 + s.build.delayBudget.toNat / du) s) :
    ∃ u, Runs (2 + s.build.delayBudget.toNat / du) s u
        (.sampleRead (pinsOf s).smpData :: List.replicate (s.build.delayBudget.toNat / du) .tick) ∧
      u.pos = .tick w ∧ u.dlyUnits.toNat = du ∧ u.dlyCnt.toInt = (s.build.delayBudget.toNat % du : Nat) ∧
      waitRegisters u = waitRegisters s := by
  have hdiv := Nat.div_add_mod s.build.delayBudget.toNat du
  have := s.build.delayBudget.isLt
  have := s.build.delayOffset.isLt
  have := (pinsOf s).smpData.isLt
  obtain ⟨x, h1, hpx, hux, hcx, hkx⟩ := exists_runs_arm hi h hp hq ha (hn.mono (Nat.le_add_right 2 _))
  rw [hdu] at hux
  obtain ⟨u, h2, hpu, huu, hcu, hku⟩ := exists_runs_ticks hi (s.build.delayBudget.toNat / du)
    (r := s.build.delayBudget.toNat % du) (h1.performs h) hpx (hn.drop h1.script) (by omega)
    (by rw [hcx, hux]; exact_mod_cast hdiv.symm) (by rw [hux]; omega)
  exact ⟨u, h1.trans h2, hpu, huu ▸ hux, hcu, hku.trans hkx⟩

/-- R131: a leg requests the sample of its decision step. -/
theorem exists_runs_request {i : Instr} {s : State} (hi : belongs i .decide = true) (h : Performs i s)
    (hr : (pinsOf s).rst = false) (hp : s.pos = .wait) :
    ∃ u, Runs 1 s u [] ∧ u.pos = .await (.wait .leg) ∧ u.smpReq = true ∧
      waitRegisters u = waitRegisters s :=
  ⟨_, h.runs hr (exec_wait hi (s := quiet s) hp) rfl rfl, rfl, rfl, by simp [waitRegisters, legRegisters]⟩

/-- R151: the tick that ends a leg's wait. -/
theorem exists_runs_tickEnd {i : Instr} {s : State} (hi : belongs i .decide = true) (h : Performs i s)
    (hr : (pinsOf s).rst = false) (hp : s.pos = .tick .leg) (hw : waitEnds s = true) :
    ∃ u, Runs 1 s u [.tick] ∧ u.pos = .count ∧ waitRegisters u = waitRegisters s := by
  have ht : tickStep .leg (quiet s) = goTo .count (emit .tick { quiet s with dlyCnt := dlyNext s }) :=
    if_pos hw
  have hx := (exec_tick (belongs_of_inLeg hi rfl rfl) (s := quiet s) hp).trans (congrArg _ ht)
  exact ⟨_, h.runs hr hx rfl rfl, rfl, by simp [waitRegisters, legRegisters]⟩

/-- R153: a wait with a longer decrement has no more ticks. -/
theorem ticks_le_ticks (b : Nat) {du du' : Nat} (h : 1 ≤ du) (hle : du ≤ du') : ticks b du' ≤ ticks b du :=
  Nat.succ_le_succ (Nat.div_le_div_left hle h)

/-- The events of a wait, its last tick apart. -/
theorem waitEvents_eq (b : Build) (v : Byte) :
    waitEvents b v =
      .sampleRead v :: List.replicate (b.delayBudget.toNat / (v.toNat + b.delayOffset.toNat)) .tick ++ [.tick] := by
  rw [waitEvents, ticks, List.replicate_succ', List.cons_append]

/-- A countdown below its decrement ends at the next tick (R151). -/
theorem waitEnds_of_lt {s : State} (hu : s.dlyUnits.toNat ≤ 510) (hc : 0 ≤ s.dlyCnt.toInt)
    (hlt : s.dlyCnt.toInt < s.dlyUnits.toNat) : waitEnds s = true := by
  rw [waitEnds_iff, dlyNext_toInt (by omega) (by omega) hu]
  omega

/-- R137, R150: the wait of a decision step, from its request to the count that follows it. -/
theorem exists_runs_legWait {i : Instr} {s : State} (hi : belongs i .decide = true) (h : Performs i s)
    (hp : s.pos = .wait) (ha : Answering (ticks s.build.delayBudget.toNat s.build.delayOffset.toNat + 3) s) :
    ∃ n u v, Runs n s u (waitEvents s.build v) ∧
      n ≤ ticks s.build.delayBudget.toNat s.build.delayOffset.toNat + 3 ∧ u.pos = .count ∧
      waitRegisters u = waitRegisters s := by
  obtain ⟨x, h1, hpx, hqx, hkx⟩ := exists_runs_request hi h ha.1.rst hp
  have hax : Answering (ticks s.build.delayBudget.toNat s.build.delayOffset.toNat + 2) x :=
    Answering.drop (m := 1) (by rwa [Nat.add_comm 1]) h1.script
  have hpos := s.build.offset_pos
  have hoff := s.build.delayOffset.isLt
  have hsmp := (pinsOf x).smpData.isLt
  generalize hdu : (pinsOf x).smpData.toNat + s.build.delayOffset.toNat = du
  have hle := ticks_le_ticks s.build.delayBudget.toNat hpos (show _ ≤ du by omega)
  unfold ticks at hle hax ⊢
  obtain ⟨y, h2, hpy, huy, hcy, hky⟩ := exists_runs_wait (belongs_of_inLeg hi rfl rfl) (h1.performs h) hpx
    hqx hax.smpAck (by rw [h1.build, hdu]) (hax.1.mono (by rw [h1.build]; omega))
  rw [h1.build] at h2 hcy
  have hlt := Nat.mod_lt s.build.delayBudget.toNat (show 0 < du by omega)
  obtain ⟨u, h3, hpu, hku⟩ := exists_runs_tickEnd hi (h2.performs (h1.performs h))
    (NoReset.drop (n := 1) (hax.1.mono (by omega)) h2.script).rst hpy
    (waitEnds_of_lt (by omega) (by omega) (by omega))
  have hall := (h1.trans h2).trans h3
  exact ⟨_, u, (pinsOf x).smpData, by rwa [waitEvents_eq, hdu], by omega, hpu, hku.trans (hky.trans hkx)⟩

/-! ## The run of a leg -/

/-- R132, R136: a leg from `c` to `t` with `k` of its decision steps done: `duty` after the moves of these, and
the accumulator that says when the next one is due. -/
structure LegAt (c t : Byte) (k : Nat) (s : State) : Prop where
  duty : s.duty = dutyAfterMoves c t (movesUpTo (legDistance c t) k)
  tgt : s.tgt = t
  dir : s.dir = legDir c t
  mag : s.mag = legMag c t
  acc : s.acc.toInt = (2 * legDistance c t * k : Nat) - 255 - 510 * movesUpTo (legDistance c t) k

theorem LegAt.of_legRegisters {c t : Byte} {k : Nat} {s u : State} (h : LegAt c t k s)
    (he : legRegisters u = legRegisters s) : LegAt c t k u := by
  simp only [legRegisters, Prod.mk.injEq] at he
  obtain ⟨hduty, htgt, hacc, hdir, hmag, -⟩ := he
  exact ⟨hduty ▸ h.duty, htgt ▸ h.tgt, hdir ▸ h.dir, hmag ▸ h.mag, hacc ▸ h.acc⟩

/-- R131: a leg just set up. -/
theorem legSetup_legAt (t : Byte) (s : State) : LegAt s.duty t 0 (legSetup t s) where
  duty := by simp [movesUpTo_zero, dutyAfterMoves]
  tgt := rfl
  dir := rfl
  mag := rfl
  acc := by simp [movesUpTo_zero]

/-- R135: after its 255 decision steps a leg is at its target, with `acc` back where it began (R134). -/
theorem LegAt.done {c t : Byte} {s : State} (h : LegAt c t 255 s) :
    s.duty = t ∧ s.acc = BitVec.ofInt 16 (-255) := by
  have hacc := h.acc
  rw [movesUpTo_255] at hacc
  constructor
  · have := c.isLt
    rw [h.duty, movesUpTo_255, dutyAfterMoves, legDistance, legDelta]
    refine BitVec.eq_of_toNat_eq ?_
    rw [BitVec.toNat_ofNat]
    split <;> omega
  · refine BitVec.eq_of_toInt_eq ?_
    rw [hacc, show (BitVec.ofInt 16 (-255)).toInt = -255 by decide]
    omega

/-- R135: one move more. -/
theorem moveOne_dutyAfterMoves {c t : Byte} {m : Nat} (hm : m < legDistance c t) :
    moveOne (legDir c t) (dutyAfterMoves c t m) = dutyAfterMoves c t (m + 1) := by
  have := c.isLt
  have := t.isLt
  simp only [legDistance, legDelta] at hm
  refine BitVec.eq_of_toNat_eq ?_
  unfold moveOne dutyAfterMoves
  by_cases h : t.toNat < c.toNat
  · rw [if_pos ((legDir_iff c t).2 h), if_pos h, if_pos h]
    bv_omega
  · rw [if_neg (mt (legDir_iff c t).1 h), if_neg h, if_neg h]
    bv_omega

/-- R134: the sum that the next decision step tests, from an accumulator within its bounds. -/
theorem LegAt.accSum_toInt {c t : Byte} {k : Nat} {s : State} (h : LegAt c t k s) (hk : k < 255) :
    (accSum s).toInt =
      (2 * legDistance c t * (k + 1) : Nat) - 255 - 510 * movesUpTo (legDistance c t) k := by
  have hacc := h.acc
  have hmoves := movesUpTo_eq (legDistance c t) hk.le
  have hd := legDistance_le c t
  have hmag : s.mag.toNat = 2 * legDistance c t := by rw [h.mag, legMag_toNat, legDistance]
  rw [Machine.accSum_toInt (by omega) (by omega) (by omega), Nat.mul_succ]
  omega

/-- R134: the sum stays in its bounds. -/
theorem LegAt.accSum_bounds {c t : Byte} {k : Nat} {s : State} (h : LegAt c t k s) (hk : k < 255) :
    -510 ≤ (accSum s).toInt ∧ (accSum s).toInt ≤ 509 := by
  have hsum := h.accSum_toInt hk
  have hmoves := movesUpTo_eq (legDistance c t) hk.le
  have hd := legDistance_le c t
  rw [Nat.mul_succ] at hsum
  omega

/-- R136: a leg moves in the decision steps of its schedule. -/
theorem LegAt.legMoves_eq {c t : Byte} {k : Nat} {s : State} (h : LegAt c t k s) (hk : k < 255) :
    legMoves s = movesAt (legDistance c t) (k + 1) := by
  rw [Bool.eq_iff_iff, legMoves_iff, h.accSum_toInt hk, movesAt_iff hk,
    movesUpTo_eq (legDistance c t) (k := k + 1) hk]
  omega

/-- R135: a move of the schedule, as the decision step makes it. -/
theorem LegAt.moveOne_eq {c t : Byte} {k : Nat} {s : State} (h : LegAt c t k s) (hk : k < 255)
    (hm : movesAt (legDistance c t) (k + 1) = true) :
    moveOne s.dir s.duty = dutyAfterMoves c t (movesUpTo (legDistance c t) (k + 1)) := by
  have hsucc := movesUpTo_succ (legDistance_le c t) hk
  have hle := movesUpTo_le (legDistance c t) (k := k + 1) hk
  rw [if_pos hm] at hsucc
  rw [h.dir, h.duty, moveOne_dutyAfterMoves (by omega), hsucc]

/-- R132, R136: a decision step goes on in the schedule. -/
theorem LegAt.decisionStep {c t : Byte} {k : Nat} {s : State} (h : LegAt c t k s) (hk : k < 255) :
    LegAt c t (k + 1) (decisionStep s) := by
  have hsum := h.accSum_toInt hk
  have hbounds := h.accSum_bounds hk
  have hsucc := movesUpTo_succ (legDistance_le c t) hk
  obtain ⟨hm, he⟩ | ⟨hm, he⟩ := decisionStep_cases s
  · rw [h.legMoves_eq hk] at hm
    have hmove := h.moveOne_eq hk hm
    rw [if_pos hm] at hsucc
    have hacc : (accSum s - 510).toInt = (accSum s).toInt - 510 := by
      rw [BitVec.toInt_sub, show (510 : BitVec 16).toInt = 510 from rfl]
      exact Int.bmod_eq_of_le (by omega) (by omega)
    rw [he, hmove]
    exact ⟨rfl, h.tgt, h.dir, h.mag, hacc.trans (by rw [hsum, hsucc]; omega)⟩
  · rw [h.legMoves_eq hk] at hm
    rw [hm] at hsucc
    rw [he]
    exact ⟨by rw [hsucc]; exact h.duty, h.tgt, h.dir, h.mag, by rw [hsucc]; exact hsum⟩

/-- R137: what a decision step emits, by the schedule. -/
def moveEvents (c t : Byte) (k : Nat) : List Event :=
  if movesAt (legDistance c t) k then [.dutyWrite (dutyAfterMoves c t (movesUpTo (legDistance c t) k))] else []

theorem legStepEvents_eq (b : Build) (c t : Byte) (k : Nat) (v : Byte) :
    legStepEvents b c t k v = moveEvents c t k ++ waitEvents b v := rfl

theorem LegAt.decisionStep_trace {c t : Byte} {k : Nat} {s : State} (h : LegAt c t k s) (hk : k < 255) :
    (Machine.decisionStep s).trace = (moveEvents c t (k + 1)).reverse ++ s.trace := by
  unfold moveEvents
  rw [← h.legMoves_eq hk]
  obtain ⟨hm, he⟩ | ⟨hm, he⟩ := decisionStep_cases s <;> rw [he, hm]
  · rw [h.moveOne_eq hk (h.legMoves_eq hk ▸ hm)]
    rfl
  · rfl

/-- R132: what a decision step leaves alone. -/
theorem decisionStep_kept (s : State) :
    unitRegisters (decisionStep s) = unitRegisters s ∧ (decisionStep s).pos = .wait ∧
      (decisionStep s).stepsLeft = s.stepsLeft := by
  obtain ⟨-, he⟩ | ⟨-, he⟩ := decisionStep_cases s <;> rw [he] <;> exact ⟨rfl, rfl, rfl⟩

theorem LegAt.quiet {c t : Byte} {k : Nat} {s : State} (h : LegAt c t k s) : LegAt c t k (quiet s) := { h with }

theorem LegAt.advance {c t : Byte} {k : Nat} {s : State} (h : LegAt c t k s) : LegAt c t k (advance s) :=
  { h with }

/-- R132, R137: the decision of a step, in the run. -/
theorem exists_runs_decide {i : Instr} {c t : Byte} {k : Nat} {s : State} (hi : belongs i .decide = true)
    (h : Performs i s) (hr : (pinsOf s).rst = false) (hp : s.pos = .decide) (hl : LegAt c t k s)
    (hk : k < 255) :
    ∃ u, Runs 1 s u (moveEvents c t (k + 1)) ∧ u.pos = .wait ∧ u.stepsLeft = s.stepsLeft ∧
      LegAt c t (k + 1) u := by
  obtain ⟨hkept, hpos, hsteps⟩ := decisionStep_kept (Machine.quiet s)
  exact ⟨_, h.runs hr (exec_decide hi (s := Machine.quiet s) hp) (hl.quiet.decisionStep_trace hk) hkept, hpos,
    hsteps, (hl.quiet.decisionStep hk).advance⟩

/-- How many steps one decision step of a leg takes at most, from its decision to its count, when the sampler
always answers at once. -/
def legStepBound (b : Build) : Nat := 5 + ticks b.delayBudget.toNat b.delayOffset.toNat

theorem legStepsBound_eq (b : Build) : legStepsBound b = 1 + 255 * legStepBound b := rfl

/-- R131, R137: one decision step of a leg and its wait, as far as the count of the step. -/
theorem exists_runs_legStep {i : Instr} {c t : Byte} {k : Nat} {s : State} (hi : belongs i .decide = true)
    (h : Performs i s) (hp : s.pos = .decide) (hl : LegAt c t k s) (hk : k < 255)
    (ha : Answering (legStepBound s.build) s) :
    ∃ n u v, Runs n s u (legStepEvents s.build c t (k + 1) v) ∧ n < legStepBound s.build ∧ u.pos = .count ∧
      u.stepsLeft = s.stepsLeft ∧ LegAt c t (k + 1) u := by
  unfold legStepBound at ha ⊢
  obtain ⟨x, h1, hpx, hsx, hlx⟩ := exists_runs_decide hi h (ha.1.mono (n := 0 + 1) (by omega)).rst hp hl hk
  obtain ⟨n, u, v, h2, hn, hpu, hku⟩ := exists_runs_legWait hi (h1.performs h) hpx
    (Answering.drop (m := 1) (ha.mono (by rw [h1.build]; omega)) h1.script)
  rw [h1.build] at h2 hn
  simp only [waitRegisters, Prod.mk.injEq] at hku
  obtain ⟨hleg, -⟩ := hku
  have hsu : u.stepsLeft = x.stepsLeft := congrArg (·.2.2.2.2.2) hleg
  exact ⟨_, u, v, h1.trans h2, by omega, hpu, hsu.trans hsx, hlx.of_legRegisters hleg⟩

/-- R131: the count of a step that is not the last. -/
theorem exists_runs_countOn {i : Instr} {c t : Byte} {k : Nat} {s : State} (hi : belongs i .decide = true)
    (h : Performs i s) (hr : (pinsOf s).rst = false) (hp : s.pos = .count) (hs : s.stepsLeft ≠ 1)
    (hl : LegAt c t k s) :
    ∃ u, Runs 1 s u [] ∧ u.pos = .decide ∧ u.stepsLeft = s.stepsLeft - 1 ∧ LegAt c t k u := by
  have hx := (exec_count hi (s := Machine.quiet s) hp).trans (congrArg _ (countStep_goesOn hs))
  exact ⟨_, h.runs hr hx rfl rfl, rfl, rfl, { hl with }⟩

/-- R131, R137: a leg with `j + 1` decision steps to come, as far as its last count. -/
theorem exists_runs_leg {i : Instr} {c t : Byte} {s : State} (hi : belongs i .decide = true) (j : Nat)
    (hj : j < 255) (h : Performs i s) (hp : s.pos = .decide) (hl : LegAt c t (254 - j) s)
    (hs : s.stepsLeft.toNat = j + 1) (ha : Answering ((j + 1) * legStepBound s.build) s) :
    ∃ n u samples, Runs n s u (legEventsFrom s.build c t (254 - j + 1) samples) ∧
      n < (j + 1) * legStepBound s.build ∧ samples.length = j + 1 ∧ u.pos = .count ∧ u.stepsLeft = 1 ∧
      LegAt c t 255 u := by
  induction j generalizing s with
  | zero =>
    obtain ⟨n, u, v, h1, hn, hpu, hsu, hlu⟩ :=
      exists_runs_legStep hi h hp hl (by omega) (ha.mono (by omega))
    refine ⟨n, u, [v], by simpa [legEventsFrom] using h1, by omega, rfl, hpu, ?_, hlu⟩
    exact hsu.trans (BitVec.eq_of_toNat_eq hs)
  | succ j ih =>
    rw [Nat.succ_mul] at ha ⊢
    obtain ⟨m, x, v, h1, hm, hpx, hsx, hlx⟩ :=
      exists_runs_legStep hi h hp hl (by omega) (ha.mono (by omega))
    rw [show 254 - (j + 1) + 1 = 254 - j by omega] at h1 hlx ⊢
    have hax : Answering ((j + 1) * legStepBound s.build + 1) x :=
      (ha.mono (by omega)).drop h1.script
    obtain ⟨y, h2, hpy, hsy, hly⟩ := exists_runs_countOn hi (h1.performs h) hax.1.rst hpx
      (by rw [hsx]; intro hone; simp [hone] at hs) hlx
    have hr := h1.trans h2
    obtain ⟨n, u, samples, h3, hn, hlen, hpu, hsu, hlu⟩ := ih (by omega) (hr.performs h) hpy hly
      (by rw [hsy, hsx]; bv_omega) (by rw [hr.build]; exact (hax.mono (by omega)).drop (m := 1) h2.script)
    rw [hr.build] at h3 hn
    exact ⟨_, u, v :: samples, by simpa [legEventsFrom] using hr.trans h3, by omega, by simp [hlen], hpu, hsu,
      hlu⟩

/-- R131, R135, R137: a whole leg, from its set-up to its last count, which ends the command or the unit:
`complete u` is the state after it. -/
theorem exists_run_wholeLeg {i : Instr} {t : Byte} {s : State} (hi : belongs i .decide = true)
    (h : Performs i s) (hx : exec i (quiet s) = .next (legSetup t (quiet s)))
    (ha : Answering (legStepsBound s.build) s) :
    ∃ n u samples, Host.Core.run core n s = .next (complete u) ∧ n ≤ legStepsBound s.build ∧
      samples.length = 255 ∧ u.trace = (legEvents s.build s.duty t samples).reverse ++ s.trace ∧
      u.duty = t ∧ u.tgt = t ∧ u.acc = BitVec.ofInt 16 (-255) ∧ u.stepsLeft = 0 ∧
      unitRegisters u = unitRegisters s := by
  rw [legStepsBound_eq] at ha ⊢
  have h1 : Runs 1 s (advance (legSetup t (quiet s))) [] :=
    h.runs (ha.1.mono (n := 0 + 1) (by omega)).rst hx rfl rfl
  have hax := ha.drop h1.script
  obtain ⟨n, x, samples, h2, hn, hlen, hpx, hsx, hlx⟩ := exists_runs_leg hi 254 (by omega) (h1.performs h) rfl
    (legSetup_legAt t (quiet s)).advance rfl hax
  have hr := h1.trans h2
  rw [h1.build] at hr hn
  have hend := (hr.performs h).step ((ha.mono (n := 1 + n + 1) (by omega)).drop hr.script).1.rst
    ((exec_count hi (s := quiet x) hpx).trans (congrArg _ (countStep_ends hsx)))
  obtain ⟨hduty, hacc⟩ := hlx.done
  have hrun := (run_add (M := core) 1 hr.run).trans (run_succ (M := core) 0 hend)
  exact ⟨1 + n + 1, advance { quiet x with stepsLeft := 0 }, samples, hrun, by omega, hlen, hr.trace, hduty,
    hlx.tgt, hacc, rfl, hr.kept⟩

/-- Settles O44: RAMP's first micro-step sets up a leg, and outside RUN a leg's end makes the CORE ready. -/
theorem rampRunsOneWholeLeg : Obligations.RampRunsOneWholeLeg := by
  unfold Obligations.RampRunsOneWholeLeg
  intro s t hb hrun hp hd ha
  obtain ⟨n, u, samples, hu, hn, hlen, htrace, hduty, htgt, hacc, hsteps, hkept⟩ :=
    exists_run_wholeLeg rfl ⟨hb, hd⟩ (congrArg Host.Outcome.next (severalMicroSteps_start (s := quiet s) hp)) ha
  simp only [unitRegisters, Prod.mk.injEq] at hkept
  obtain ⟨hrng, hres, hmode, hrun', -, herr, herrCmd, hcmd, -⟩ := hkept
  rw [hrun] at hrun'
  rw [complete_of_not_run hrun'] at hu
  exact ⟨n, _, samples, hu, hn, hlen, htrace, hduty, htgt, hacc, hsteps, rfl, rfl, hrng, hres, hmode, hrun', herr,
    herrCmd, hcmd⟩

end Sys2Proof.Machine
end

