-- ==== Sys2Proof/Proofs/Delay.lean ====
section
/-!
PROOF. Sys2Proof/Proofs/Delay.lean: the statements of spec/43_delay.md: the micro-steps of a delay wait (R150, R151,
R158), the run of DELAY (R152, R155), and how its ticks depend on the sample (R153), in a ramp leg too (R154).
-/

namespace Sys2Proof.Machine

/-! ## The micro-steps of a wait -/

/-- R155: DELAY's first micro-step requests the sample. -/
theorem exec_delay_start {s : State} (hp : s.pos = .start) :
    exec .delay s = .next (request (.wait .command) s) :=
  congrArg Host.Outcome.next (severalMicroSteps_start hp)

/-- R158: the decrement, put together as a number. -/
theorem delayUnits_eq_ofNat (o v : Byte) : delayUnits o v = BitVec.ofNat 9 (v.toNat + o.toNat) := by
  rw [← delayUnits_toNat, BitVec.ofNat_toNat, BitVec.setWidth_eq]

/-- R150: the arming of a wait, with its two values as numbers. -/
theorem armWait_eq (w : WaitOf) (v : Byte) (s : State) :
    armWait w v s =
      { s with
        dlyUnits := BitVec.ofNat 9 (v.toNat + s.build.delayOffset.toNat),
        dlyCnt := BitVec.ofNat 16 s.build.delayBudget.toNat, pos := .tick w } := by
  rw [← delayUnits_eq_ofNat, BitVec.ofNat_toNat]
  rfl

/-- R151: a tick that leaves the countdown at 0 or above goes on. -/
theorem tickStep_goesOn {w : WaitOf} {s : State} (h : 0 ≤ (dlyNext s).toInt) :
    tickStep w s = emit .tick { s with dlyCnt := dlyNext s } :=
  if_neg (by rw [waitEnds_iff]; omega)

/-- R150: a tick that leaves the countdown negative ends the wait. -/
theorem tickStep_ends {w : WaitOf} {s : State} (h : (dlyNext s).toInt < 0) :
    tickStep w s = afterWait w (emit .tick { s with dlyCnt := dlyNext s }) :=
  if_pos ((waitEnds_iff s).2 h)

/-- R155: outside RUN, the tick that ends DELAY's wait completes the command. -/
theorem exec_lastTick {s : State} (hp : s.pos = .tick .command) (h : (dlyNext s).toInt < 0)
    (hr : s.run = false) :
    exec .delay s =
      .next { s with dlyCnt := dlyNext s, trace := .tick :: s.trace, busy := false, pos := .idle } :=
  (exec_tick rfl hp).trans
    (congrArg Host.Outcome.next ((tickStep_ends h).trans (complete_of_not_run (by simpa using hr))))

/-- Settles O47: the request, the arming, and the outcomes of a tick by the sign of what it leaves. -/
theorem delayWaitMicroSteps : Obligations.DelayWaitMicroSteps := by
  unfold Obligations.DelayWaitMicroSteps
  intro s v
  refine ⟨exec_delay_start, fun i w hi hp => ?_, fun i w hi hp hn => ?_, exec_lastTick, fun i hi hp hn => ?_⟩
  · rw [exec_apply_wait hi hp, armWait_eq]
  · rw [exec_tick hi hp, tickStep_goesOn hn]
    rfl
  · rw [exec_tick hi hp, tickStep_ends hn]
    rfl

/-! ## The run of DELAY -/

/-- R152: what `ticks(du)` decrements leave of the countdown: the last one is taken from the remainder. -/
theorem mod_sub_eq_sub_mul_ticks (b du : Nat) : ((b % du : Nat) : Int) - du = b - du * ticks b du := by
  rw [Int.natCast_mod, Int.emod_def, ticks]
  push_cast
  ring

/-- R152: the tick taken from the remainder leaves the countdown negative. -/
theorem dlyNext_of_remainder {s : State} {b du : Nat} (hu : s.dlyUnits.toNat = du) (hpos : 0 < du)
    (hle : du ≤ 510) (hc : s.dlyCnt.toInt = (b % du : Nat)) :
    (dlyNext s).toInt = b - du * ticks b du ∧ (dlyNext s).toInt < 0 := by
  have hlt := Nat.mod_lt b hpos
  have hnext : (dlyNext s).toInt = (b % du : Nat) - du := by
    rw [dlyNext_toInt (by omega) (by omega) (by omega), hc, hu]
  exact ⟨hnext.trans (mod_sub_eq_sub_mul_ticks b du), by omega⟩

/-- R150, R155: DELAY from its first micro-step to its last tick, which ends the wait. -/
theorem exists_runs_delay {s : State} {p q : Pins} {rest : List Pins} {du : Nat} (h : Performs .delay s)
    (hp : s.pos = .start) (hs : s.script = p :: q :: rest) (ha : q.smpAck = true)
    (hdu : q.smpData.toNat + s.build.delayOffset.toNat = du)
    (hn : NoReset (3 + s.build.delayBudget.toNat / du) s) :
    ∃ u, Runs (3 + s.build.delayBudget.toNat / du) s u
        (.sampleRead q.smpData :: List.replicate (s.build.delayBudget.toNat / du) .tick) ∧
      u.pos = .tick .command ∧ u.dlyUnits.toNat = du ∧
      u.dlyCnt.toInt = (s.build.delayBudget.toNat % du : Nat) ∧ waitRegisters u = waitRegisters s := by
  have h1 : Runs 1 s (advance (request (.wait .command) (quiet s))) [] :=
    h.runs (hn.mono (n := 0 + 1) (Nat.le_add_right_of_le (by omega))).rst
      (exec_delay_start (s := quiet s) hp) rfl rfl
  have hq : pinsOf (advance (request (.wait .command) (quiet s))) = q :=
    pinsOf_cons (rest := rest) (by simp [hs])
  obtain ⟨u, h2, hpu, hu, hc, hk⟩ := exists_runs_wait rfl (h1.performs h) rfl rfl (hq ▸ ha) (hq ▸ hdu)
    (NoReset.drop (m := 1) (by rw [← Nat.add_assoc]; exact hn) h1.script)
  have hall := h1.trans h2
  rw [hq, ← Nat.add_assoc] at hall
  exact ⟨u, hall, hpu, hu, hc, hk⟩

/-- Settles O48: after `B div du` ticks less than `du` is left, so the next tick is the last. -/
theorem delayRunsOneWholeWait : Obligations.DelayRunsOneWholeWait := by
  unfold Obligations.DelayRunsOneWholeWait
  intro s p q rest hb hrun hp hd hs hn ha
  have h : Performs .delay s := ⟨hb, hd⟩
  have hoff := s.build.offset_pos
  have := s.build.delayOffset.isLt
  have := q.smpData.isLt
  rw [waitEvents_eq]
  generalize hdu : q.smpData.toNat + s.build.delayOffset.toNat = du at hn ⊢
  obtain ⟨x, h1, hpx, hux, hcx, hkx⟩ := exists_runs_delay h hp hs ha hdu (hn.mono (by rw [ticks]; omega))
  obtain ⟨hnext, hneg⟩ := dlyNext_of_remainder hux (by omega) (by omega) hcx
  have hkept := h1.kept
  simp only [unitRegisters, waitRegisters, legRegisters, Prod.mk.injEq] at hkept hkx
  obtain ⟨hrng, hres, -, hrunx, -⟩ := hkept
  obtain ⟨⟨hduty, -⟩, hreg⟩ := hkx
  have hend := (h1.performs h).step (NoReset.drop (n := 1) hn h1.script).rst
    (exec_lastTick (s := quiet x) hpx hneg (hrunx.trans hrun))
  have hsum : (q.smpData.toNat + s.build.delayOffset.toNat : Int) = du := by exact_mod_cast hdu
  rw [hsum]
  exact ⟨_, (run_add (M := core) 1 h1.run).trans (run_succ (M := core) 0 hend), by simp [h1.trace], hux, hnext,
    rfl, rfl, hduty, hrng, hres, hreg⟩

/-! ## The number of ticks -/

/-- Settles O49: the quotient is antitone in the divisor; the two values are 8192/200 and 8192/201. -/
theorem ticksNeverIncreaseWithTheSample : Obligations.TicksNeverIncreaseWithTheSample := by
  unfold Obligations.TicksNeverIncreaseWithTheSample
  exact ⟨fun b _ _ => ticks_le_ticks b, fun b _ _ _ ho hs => ticks_le_ticks b (by omega) (by omega), rfl, rfl⟩

/-- R137, R152: the ticks of a decision step are those of its wait. -/
theorem countP_isTick_legStepEvents (b : Build) (c t : Byte) (k : Nat) (v : Byte) :
    (legStepEvents b c t k v).countP isTick =
      ticks b.delayBudget.toNat (v.toNat + b.delayOffset.toNat) := by
  have hmove : (moveEvents c t k).countP isTick = 0 := by
    unfold moveEvents
    split <;> simp [isTick]
  rw [legStepEvents_eq, List.countP_append, hmove, waitEvents]
  simp [isTick, List.countP_replicate]

/-- R154: each wait of a leg has at least the ticks of the input 255 and at most those of the input 0. -/
theorem countP_isTick_legEventsFrom (b : Build) (c t : Byte) (samples : List Byte) (k : Nat) :
    samples.length * ticks b.delayBudget.toNat (255 + b.delayOffset.toNat) ≤
        (legEventsFrom b c t k samples).countP isTick ∧
      (legEventsFrom b c t k samples).countP isTick ≤
        samples.length * ticks b.delayBudget.toNat b.delayOffset.toNat := by
  induction samples generalizing k with
  | nil => simp [legEventsFrom]
  | cons v rest ih =>
    obtain ⟨hlow, hhigh⟩ := ih (k + 1)
    have hoff := b.offset_pos
    have hv := v.isLt
    have hmin : ticks b.delayBudget.toNat (255 + b.delayOffset.toNat) ≤
        ticks b.delayBudget.toNat (v.toNat + b.delayOffset.toNat) := ticks_le_ticks _ (by omega) (by omega)
    have hmax : ticks b.delayBudget.toNat (v.toNat + b.delayOffset.toNat) ≤
        ticks b.delayBudget.toNat b.delayOffset.toNat := ticks_le_ticks _ hoff (by omega)
    rw [legEventsFrom, List.countP_append, countP_isTick_legStepEvents, List.length_cons, Nat.succ_mul,
      Nat.succ_mul]
    omega

/-- Settles O50: a leg has 255 waits. -/
theorem legTicksAreBounded : Obligations.LegTicksAreBounded := by
  unfold Obligations.LegTicksAreBounded
  intro b c t samples h
  have hall := countP_isTick_legEventsFrom b c t samples 1
  rwa [h] at hall

end Sys2Proof.Machine
end

