-- ==== Sys2Proof/Proofs/Sequencer.lean ====
section
/-!
PROOF. Sys2Proof/Proofs/Sequencer.lean: the statements of spec/44_sequencer.md: the micro-steps of NOP, MANUAL, AUTO
and RUN (R170-R173), who polls the mode switch (R175, R176), that RUN never completes (R173), and the runs of a
whole auto unit, in AUTO and in RUN, and of a manual unit (R171, R172, R174).
-/

namespace Sys2Proof.Machine

/-! ## The micro-steps of RUN and of the units of work -/

/-- R173: inside RUN a unit's last micro-step leads to the next poll, and the CORE stays busy. -/
theorem complete_of_run {s : State} (h : s.run = true) : complete s = { s with pos := .poll } := by
  simp [complete, h]

/-- R173: RUN's first micro-step requests the seed. -/
theorem exec_run_start {s : State} (hp : s.pos = .start) : exec .run s = .next (request .seed s) := by
  simp [exec, execRun, hp]

/-- R173: RUN folds the seed as SEED does. -/
theorem exec_run_applySeed {s : State} {v : Byte} (hp : s.pos = .apply .seed v) :
    exec .run s = .next (applySeed v s) := by
  simp [exec, execRun, runStep, hp]

theorem exec_run_poll {s : State} (hp : s.pos = .poll) : exec .run s = .next (pollMode s) := by
  simp [exec, execRun, runStep, hp]

/-- R173, R174: with `mode = 1` RUN's next unit is AUTO's, with `e = 0`. -/
theorem exec_run_unitAuto {s : State} (hp : s.pos = .unit) (hm : s.mode = true) :
    exec .run s = .next (generate 0 s) := by
  simp [exec, execRun, runStep, unitStart, hp, hm]

/-- R173: with `mode = 0` RUN's next unit is MANUAL's. -/
theorem exec_run_unitManual {s : State} (hp : s.pos = .unit) (hm : s.mode = false) :
    exec .run s = .next (request .manual s) := by
  simp [exec, execRun, runStep, unitStart, hp, hm]

/-- R171, R173: after its read the manual unit is the same in MANUAL and in RUN. -/
theorem exec_applyManual {i : Instr} {s : State} {v : Byte} (hi : i = .manual ∨ i = .run)
    (hp : s.pos = .apply .manual v) : exec i s = .next (applyManual v s) := by
  obtain rfl | rfl := hi
  · simp [exec, execManual, severalMicroSteps, manualStep, hp]
  · simp [exec, execRun, runStep, hp]

/-- R171: the write and the addition of the manual unit, the sum as a number. -/
theorem applyManual_eq (v : Byte) (s : State) :
    applyManual v s =
      complete { s with
        duty := scale s.build.pwmMin v, pwmWe := true, pwmReg := scale s.build.pwmMin v,
        trace := .dutyWrite (scale s.build.pwmMin v) :: s.trace,
        rng := BitVec.ofNat 16 (s.rng.toNat + v.toNat) } := by
  rw [applyManual, foldLow_eq_ofNat]
  rfl

/-- R111, R172: the generator's step of the auto unit, with its target as the scaled high byte. -/
theorem generate_eq (e : Byte) (s : State) :
    generate e s =
      { s with
        rng := lcg s.rng e, res := scale s.build.pwmMin (highByte (lcg s.rng e)),
        pos := .legStart (scale s.build.pwmMin (highByte (lcg s.rng e))) } := rfl

/-- R172: AUTO's first micro-step. -/
theorem exec_auto_start {e : Byte} {s : State} (hp : s.pos = .start) :
    exec (.auto e) s = .next (generate e s) :=
  congrArg Host.Outcome.next (severalMicroSteps_start hp)

/-- Settles O51: NOP does nothing but complete. -/
theorem nopCompletesAtOnce : Obligations.NopCompletesAtOnce := by
  unfold Obligations.NopCompletesAtOnce
  intro s hr
  exact congrArg Host.Outcome.next (complete_of_not_run hr)

/-- Settles O52: MANUAL's request, and its write and addition after the read, which complete. -/
theorem manualWritesTheScaledSample : Obligations.ManualWritesTheScaledSample := by
  unfold Obligations.ManualWritesTheScaledSample
  intro s v hr
  refine ⟨fun hp => congrArg Host.Outcome.next (severalMicroSteps_start hp), fun hp => ?_⟩
  rw [exec_applyManual (.inl rfl) hp, applyManual_eq, complete_of_not_run (by exact hr)]

/-- Settles O53: AUTO's first micro-step is `generate`. -/
theorem autoGeneratesItsTarget : Obligations.AutoGeneratesItsTarget := by
  unfold Obligations.AutoGeneratesItsTarget
  intro e s hp
  rw [exec_auto_start hp, generate_eq]

/-- Settles O55: RUN's micro-steps by position; inside RUN the seed and a manual unit end at the poll. -/
theorem runDispatchesUnits : Obligations.RunDispatchesUnits := by
  unfold Obligations.RunDispatchesUnits
  intro s v
  refine ⟨fun hp => acceptanceEntersTheCommand s .run hp (by simp), exec_run_start, fun hp hr => ?_,
    exec_run_poll, fun hp hm => ?_, exec_run_unitManual, fun hp hr => ?_⟩
  · rw [exec_run_applySeed hp, applySeed, complete_of_run (by simpa using hr), foldHigh_eq_ofNat]
    rfl
  · rw [exec_run_unitAuto hp hm, generate_eq]
  · rw [exec_applyManual (.inr rfl) hp, applyManual_eq, complete_of_run (by exact hr)]

/-! ## The mode poll -/

/-- R175, R176: RUN's poll writes `mode` and polls the switch; no other micro-step does either. -/
theorem micro_mode_cases {i : Instr} {s t : State} (h : Micro i s t) :
    (i = .run ∧ s.pos = .poll ∧ t = pollMode s) ∨
    (t.mode = s.mode ∧ t.trace.countP isModePoll = s.trace.countP isModePoll) := by
  cases h with
  | poll hp => exact .inl ⟨rfl, hp, rfl⟩
  | _ => exact .inr (by simp [applySeed, applyPerturb, applyManual, generate, isModePoll])

/-- Settles O23: of the kinds of steps without reset, the command in progress alone can poll, and only RUN's poll
does. -/
theorem modeChangesOnlyAtThePoll : Obligations.ModeChangesOnlyAtThePoll := by
  unfold Obligations.ModeChangesOnlyAtThePoll
  intro s t hr h hne
  cases step_cases h with
  | reset hrst => simp [hrst] at hr
  | accept i u _ _ _ _ hm ht =>
    obtain ⟨-, rfl⟩ | ⟨-, rfl⟩ | ⟨-, -, rfl⟩ := micro_accept rfl hm <;> simp [ht, isModePoll] at hne
  | illegal _ _ _ _ _ ht => simp [ht, illegalCycle, isModePoll] at hne
  | idle _ _ _ ht => simp [ht, idleCycle] at hne
  | inProgress i u _ _ hd hm ht =>
    obtain ⟨rfl, hp, rfl⟩ | ⟨hmode, hcount⟩ := micro_mode_cases hm
    · exact ⟨hp, hd, by simp [ht]⟩
    · simp [ht, hmode, hcount] at hne

/-! ## RUN never completes -/

/-- R173: with `run = 1` the end of a unit leaves `busy`, and no micro-step clears `run`. -/
theorem micro_staysInRun {i : Instr} {s t : State} (h : Micro i s t) (hr : s.run = true) (hb : s.busy = true) :
    t.run = true ∧ t.busy = true := by
  cases h <;> simp [applySeed, applyPerturb, applyManual, hr, hb]

/-- Settles O25: inside RUN every step without reset is a micro-step, and each leaves `run` and `busy` set. -/
theorem runNeverCompletes : Obligations.RunNeverCompletes := by
  unfold Obligations.RunNeverCompletes
  intro s t hr hrun hbusy h
  have hready : idleAndReady s = false := (not_idleAndReady_iff s).2 (.inl hbusy)
  cases step_cases h with
  | reset hrst => simp [hrst] at hr
  | accept _ _ _ hi | illegal _ _ hi | idle _ hi => simp [hready] at hi
  | inProgress i u _ _ _ hm ht =>
    have hcmd := micro_cmd hm
    obtain ⟨hrunu, hbusyu⟩ := micro_staysInRun hm hrun hbusy
    exact ⟨by simp [ht, hrunu], by simp [ht, hbusyu], by simp [ht, hcmd],
      by simp [outputs, heldInReset, idleAndReady, ht, hbusyu]⟩

/-! ## The run of an auto unit -/

/-- The levels left after one step. -/
theorem Answering.advance {n : Nat} {s t : State} (h : Answering (1 + n) s) (ht : t.script = s.script) :
    Answering n (advance t) :=
  h.drop (by simp [ht])

/-- R172, R174: an auto unit with entropy `e`, from its generator step to the last count of its leg: `complete u`
is the state after it. -/
theorem exists_run_autoUnit {i : Instr} {e : Byte} {s : State} (hi : ∀ t, belongs i (.legStart t) = true)
    (h : Performs i s) (hx : exec i (quiet s) = .next (generate e (quiet s)))
    (ha : Answering (1 + legStepsBound s.build) s) :
    ∃ n u samples, Host.Core.run core n s = .next (complete u) ∧ n ≤ 1 + legStepsBound s.build ∧
      samples.length = 255 ∧
      u.trace =
        (legEvents s.build s.duty (targetOf s.build.pwmMin (lcg s.rng e)) samples).reverse ++ s.trace ∧
      u.duty = targetOf s.build.pwmMin (lcg s.rng e) ∧ u.acc = BitVec.ofInt 16 (-255) ∧ u.stepsLeft = 0 ∧
      unitRegisters u =
        (lcg s.rng e, targetOf s.build.pwmMin (lcg s.rng e), s.mode, s.run, s.busy, s.err, s.errCmd, s.cmd,
          s.build) := by
  have hstep := h.step (ha.1.mono (n := 0 + 1) (by omega)).rst hx
  obtain ⟨n, u, samples, hu, hn, hlen, htrace, hduty, -, hacc, hsteps, hkept⟩ :=
    exists_run_wholeLeg (s := advance (generate e (quiet s))) (belongs_decide_of_legStart (hi 0))
      ⟨h.busy, h.decoded⟩ (exec_legStart (hi _) rfl) (ha.advance rfl)
  exact ⟨1 + n, u, samples, (run_add (M := core) n (run_succ (M := core) 0 hstep)).trans hu,
    Nat.add_le_add_left hn 1, hlen, htrace, hduty, hacc, hsteps, hkept⟩

/-- Settles O54: AUTO is one auto unit, and outside RUN its end makes the CORE ready. -/
theorem autoRunsOneWholeUnit : Obligations.AutoRunsOneWholeUnit := by
  unfold Obligations.AutoRunsOneWholeUnit
  intro s e hb hrun hp hd ha
  obtain ⟨n, u, samples, hu, hn, hlen, htrace, hduty, hacc, hsteps, hkept⟩ :=
    exists_run_autoUnit (fun _ => rfl) ⟨hb, hd⟩ (exec_auto_start (s := quiet s) hp) ha
  simp only [unitRegisters, Prod.mk.injEq] at hkept
  obtain ⟨hrng, hres, hmode, hrunu, -, herr, herrCmd, -⟩ := hkept
  rw [complete_of_not_run (hrunu.trans hrun)] at hu
  exact ⟨n, _, samples, hu, hn, hlen, hrng, hrng ▸ hres, hres ▸ htrace, hduty.trans hres.symm, hacc, hsteps, rfl,
    rfl, hmode, herr, herrCmd⟩

/-! ## The units inside RUN -/

/-- R173: RUN's poll, as a step. -/
theorem step_run_poll {s : State} (h : Performs .run s) (hr : (pinsOf s).rst = false) (hp : s.pos = .poll) :
    step s = .next (advance (pollMode (quiet s))) :=
  h.step hr (exec_run_poll (s := quiet s) hp)

/-- Settles O57: the poll sees Auto, the auto unit follows, and inside RUN its end leads to the poll. -/
theorem runAutoUnit : Obligations.RunAutoUnit := by
  unfold Obligations.RunAutoUnit
  intro s p rest hb hrun hp hd hs ha hsw
  have hpin : pinsOf s = p := pinsOf_cons hs
  have hpoll := step_run_poll ⟨hb, hd⟩ (ha.1.mono (n := 0 + 1) (by omega)).rst hp
  have hmode : (pollMode (quiet s)).mode = true := by simp [hpin, hsw]
  obtain ⟨n, u, samples, hu, hn, hlen, htrace, hduty, -, -, hkept⟩ :=
    exists_run_autoUnit (s := advance (pollMode (quiet s))) (fun _ => rfl) ⟨hb, hd⟩
      (exec_run_unitAuto rfl hmode) (Answering.advance (by rw [← Nat.add_assoc]; exact ha) rfl)
  simp only [unitRegisters, Prod.mk.injEq] at hkept
  obtain ⟨hrng, hres, hmodeu, hrunu, hbusyu, -⟩ := hkept
  rw [complete_of_run (hrunu.trans hrun)] at hu
  refine ⟨1 + n, _, samples, (run_add (M := core) n (run_succ (M := core) 0 hpoll)).trans hu, ?_, hlen, hrng,
    hrng ▸ hres, ?_, hduty.trans hres.symm, hmodeu.trans hmode, rfl, hrunu.trans hrun, hbusyu.trans hb⟩
  · have hle : n ≤ 1 + legStepsBound s.build := hn
    omega
  · rw [← hpin]
    exact hres ▸ htrace

/-- R52: a request, answered at the next step: `ReadInput()` for `u` returns the level there. -/
theorem exists_runs_read {i : Instr} {u : SampleUse} {s : State} {q r : Pins} {rest : List Pins}
    (hi : belongs i (.await u) = true) (h : Performs i s)
    (hx : exec i (quiet s) = .next (request u (quiet s))) (hs : s.script = q :: r :: rest)
    (hn : NoReset 2 s) (ha : r.smpAck = true) :
    ∃ x, Runs 2 s x [.sampleRead r.smpData] ∧ x.pos = .apply u r.smpData := by
  have h1 : Runs 1 s (advance (request u (quiet s))) [] := h.runs hn.rst hx rfl rfl
  have hr : pinsOf (advance (request u (quiet s))) = r := pinsOf_cons (rest := rest) (by simp [hs])
  have h2 := runs_latch hi (h1.performs h) (NoReset.drop (m := 1) (n := 1) hn h1.script).rst rfl rfl (hr ▸ ha)
  rw [hr] at h2
  exact ⟨_, h1.trans h2, rfl⟩

/-- Settles O56: the poll, the request and its answer, and the write with the addition, which leads to the poll. -/
theorem runManualUnit : Obligations.RunManualUnit := by
  unfold Obligations.RunManualUnit
  intro s p q r o rest hb hrun hp hd hs hn hsw hack
  have hpin : pinsOf s = p := pinsOf_cons hs
  have hpoll := step_run_poll ⟨hb, hd⟩ hn.rst hp
  have hmode : (pollMode (quiet s)).mode = false := by simpa [hpin] using hsw
  have hperf : Performs .run (advance (pollMode (quiet s))) := ⟨hb, hd⟩
  have hn1 : NoReset 3 (advance (pollMode (quiet s))) := NoReset.drop (m := 1) hn (by simp)
  obtain ⟨x, h2, hpx⟩ := exists_runs_read (u := .manual) rfl hperf (exec_run_unitManual rfl hmode)
    (q := q) (rest := o :: rest) (by simp [hs]) (hn1.mono (by omega)) hack
  have hend := (h2.performs hperf).step (NoReset.drop (m := 2) (n := 1) hn1 h2.script).rst
    (exec_applyManual (.inr rfl) (s := quiet x) hpx)
  have hkept := h2.kept
  simp only [unitRegisters, Prod.mk.injEq] at hkept
  obtain ⟨hrng, hres, hmodex, hrunx, hbusyx, -, -, -, hbuild⟩ := hkept
  rw [applyManual_eq, complete_of_run (by exact hrunx.trans hrun)] at hend
  have hall := (run_succ (M := core) 3 hpoll).trans
    ((run_add (M := core) 1 h2.run).trans (run_succ (M := core) 0 hend))
  exact ⟨_, hall, by simp [h2.trace, hbuild, hpin], by simp [hbuild], by simp [hrng], hmodex.trans hmode, hres, rfl,
    hrunx.trans hrun, hbusyx.trans hb⟩

end Sys2Proof.Machine
end

