-- ==== Sys2Proof/Proofs/Exceptions.lean ====
section
/-!
PROOF. Sys2Proof/Proofs/Exceptions.lean: the statements of spec/60_exceptions.md: nothing stops the machine (R200,
R203), the one exception, an illegal word (R201), and its sticky flag (R207).
-/

namespace Sys2Proof.Machine

/-! ## Nothing stops -/

/-- R200: with a command's meaning to run, the step goes on. -/
theorem afterCommand_exec_next (i : Instr) (s : State) : ∃ t, afterCommand (exec i s) = .next t := by
  obtain ⟨u, hu⟩ := exec_next i s
  exact ⟨advance u, by rw [hu]; rfl⟩

/-- A ready CORE resets, accepts the word offered, legal or not, or waits: it never stops. -/
theorem step_next_of_ready {s : State} (hi : idleAndReady s = true) : ∃ t, step s = .next t := by
  cases hr : (pinsOf s).rst with
  | true => exact ⟨_, step_reset hr⟩
  | false =>
    cases hv : (pinsOf s).cmdValid with
    | false => exact ⟨_, step_idle hr hi hv⟩
    | true =>
      cases hd : decode (pinsOf s).cmd with
      | legal i => rw [step_accept hr hi hv hd]; exact afterCommand_exec_next i _
      | illegal why => exact ⟨_, step_illegal hr hi hv hd⟩

/-- A CORE that is not ready goes on whenever `cmd` holds a legal word (log entry 9). -/
theorem step_next_of_legal {s : State} {i : Instr} (hi : idleAndReady s = false)
    (hd : decode s.cmd = .legal i) : ∃ t, step s = .next t := by
  cases hr : (pinsOf s).rst with
  | true => exact ⟨_, step_reset hr⟩
  | false => rw [step_inProgress hr hi hd]; exact afterCommand_exec_next i _

/-- Settles O19: the invariant gives a CORE that is not ready the legal word it needs. -/
theorem noCommandAndNoStepStops : Obligations.NoCommandAndNoStepStops := by
  unfold Obligations.NoCommandAndNoStepStops
  refine ⟨exec_next, fun s h => ?_⟩
  cases hi : idleAndReady s with
  | true => exact step_next_of_ready hi
  | false =>
    obtain ⟨i, hd, -⟩ := h.sequencer.command (h.busy hi)
    exact step_next_of_legal hi hd

/-! ## The illegal word -/

/-- Settles O24: an illegal word finds `err` already set, and no other step without reset writes `err` or
`err_cmd`. -/
theorem errIsSticky : Obligations.ErrIsSticky := by
  unfold Obligations.ErrIsSticky
  intro s t hr he h
  cases step_cases h with
  | reset hrst => simp [hrst] at hr
  | illegal _ _ _ _ _ ht => simp [ht, illegalCycle, he]
  | idle _ _ _ ht => simp [ht, idleCycle, he]
  | accept i u _ _ _ _ hm ht | inProgress i u _ _ _ hm ht =>
    obtain ⟨herr, herrCmd, -⟩ := micro_err_levels hm
    exact ⟨by simp [ht, herr, he], by simp [ht, herrCmd]⟩

/-- Settles O10: `illegalCycle`, written out. -/
theorem illegalWordSetsErrAlone : Obligations.IllegalWordSetsErrAlone := by
  unfold Obligations.IllegalWordSetsErrAlone
  intro s why hr hb hrun hv hd
  exact step_illegal hr ((idleAndReady_iff s).2 ⟨hb, hrun⟩) hv hd

end Sys2Proof.Machine
end

