-- ==== Sys2Proof/Proofs/Reset.lean ====
section
/-!
PROOF. Sys2Proof/Proofs/Reset.lean: the statements of spec/70_reset_and_hazards.md: a step with reset (R220, R224) and
a step of a ready CORE that is offered no word (R221).
-/

namespace Sys2Proof.Machine

/-- R220: in every cycle with reset, no command is taken, no sample requested and no strobe shown. -/
theorem outputs_of_rst {s : State} (hr : (pinsOf s).rst = true) :
    (outputs s).cmdReady = false ∧ (outputs s).smpReq = false ∧ (outputs s).pwmWe = false :=
  ⟨heldInReset_of_rst hr (idleAndReady s), heldInReset_of_rst hr s.smpReq, heldInReset_of_rst hr s.pwmWe⟩

/-- Settles O12: reset outranks the command, and `resetCycle`, written out, is the state after it. -/
theorem resetSetsEveryRegister : Obligations.ResetSetsEveryRegister := by
  unfold Obligations.ResetSetsEveryRegister
  intro s hr
  obtain ⟨hready, hreq, hwe⟩ := outputs_of_rst hr
  exact ⟨hready, hreq, hwe, step_reset hr⟩

/-- Settles O14: with `busy` and `run` at 0 the CORE is ready, and `idleCycle`, written out, is its wait. -/
theorem readyCoreWaitsForACommand : Obligations.ReadyCoreWaitsForACommand := by
  unfold Obligations.ReadyCoreWaitsForACommand
  intro s hr hb hrun hv
  exact step_idle hr ((idleAndReady_iff s).2 ⟨hb, hrun⟩) hv

end Sys2Proof.Machine
end
